-- ==== Sys2Proof/Word.lean ====
section
/-! DEFINITION. The two bit-vector types the spec gives the block: a byte of data memory (20_memory.md R50) and
a word of the host bus (30_encoding.md R70). Bit 0 is the least significant bit of both (00_scope.md R10). -/

namespace Sys2Proof

/-- One byte of data memory, and the width of `e.CODE`. -/
abbrev Byte := BitVec 8

/-- One 32-bit word of the host bus: a register's contents or a command word. -/
abbrev Word := BitVec 32

end Sys2Proof
end

