-- ==== Sys2Proof/Config.lean ====
section
/-! DEFINITION. What an implementation or its platform fixes: the constants of 00_scope.md R9, the three open
parameters `ADDR_W`, `REG_BASE` and `MemOK` (00_scope.md R7 and R8, 92_eei_decisions.md "Open parameters") as plain
data, the byte an unlisted address reads as, and the one free value of the model. -/

namespace Sys2Proof.Config

/-- The terminator byte (R9). -/
def terminator : Byte := 0x00

/-- The code of a full block (R9). -/
def fullCode : Byte := 0xFF

/-- The distance from a block's code slot to the write cursor when the block is full: its code byte and 254 data
bytes (41_encode.md R122 item 2). -/
def fullSpan : Nat := 255

/-- Data bytes of a full block (R9). -/
def maxData : Nat := 254

/-- The kind of an engine byte access, the second argument of `MemOK` (R8). -/
inductive AccessKind where
  | read
  | write
  deriving DecidableEq, Repr

/-- One entry of the platform's admission map: `size` addresses from `base`, with the kinds it admits. -/
structure MemRegion where
  base     : Nat
  size     : Nat
  readable : Bool
  writable : Bool
  deriving DecidableEq, Repr

/-- The parameters a platform chooses. `MemOK` is any predicate (R8); a predicate on finitely many addresses is
held as the list of the regions it admits, so that a state stays plain data (assumption 4).
`windowInMemory` is the choice 20_memory.md R51 leaves to the platform: whether the register window is a range of
the address space the engine reaches. -/
structure Platform where
  /-- `ADDR_W`, 8 to 32 (R7). -/
  addrW          : Nat
  /-- `REG_BASE`, a multiple of 32 (R8). -/
  regBase        : Nat
  /-- R51 (assumption 5). -/
  windowInMemory : Bool
  /-- `MemOK` (R8). -/
  memMap         : List MemRegion
  /-- Whether the platform's own reset clears data memory (70_reset_and_hazards.md R232, 93_implementation_defined.md
  U15: a parameter of the platform). -/
  resetClearsMemory : Bool
  deriving DecidableEq, Repr

/-- The instance `State.reset` carries: the spec's default `ADDR_W = 32`, and for the two parameters without a
default the values its programs use: `REG_BASE = 0x40000000`, every access admitted (95_test_vectors.md
"Conventions" and section 7). A platform's own reset leaves memory as it is. DESIGN CHOICE (assumptions 4 and 19,
unsafe). -/
def defaultPlatform : Platform where
  addrW := 32
  regBase := 0x40000000
  windowInMemory := false
  memMap := [⟨0, 2 ^ 32, true, true⟩]
  resetClearsMemory := false

/-- What an address no cell lists reads as. DESIGN CHOICE (assumption 6, unsafe): the spec's programs start with
memory 0 everywhere (95_test_vectors.md section 7); the rules state no initial contents. -/
def unlistedByte : Byte := 0

/-- The free value "any value: a draw under no law" (40_command_issue.md R113, 20_memory.md R61,
93_implementation_defined.md): the byte at an address in the draw of a given number. It has no body, so nothing
can be proved about a value of it (assumption 7, safe). -/
opaque freeByte (draw addr : Nat) : Byte

end Sys2Proof.Config
end

