-- ==== Sys2Proof/Syntax.lean ====
section
/-! DEFINITION. The command set COBS-CMD rev 1 (00_scope.md R2): one constructor per row of
spec/opcode_table.json. A command has no fields beyond its opcode; its operands are the argument registers
(30_encoding.md R75). -/

namespace Sys2Proof

/-- The four commands (30_encoding.md R73). -/
inductive Instr where
  /-- `encode(payload, payload_len, out_buf, out_cap)` (41_encode.md R120). -/
  | encode
  /-- `decode(frame, frame_len, out_buf, out_cap)` (42_decode.md R150). -/
  | decode
  /-- `minEncodedSize(n)` (43_sizing.md R180). -/
  | minenc
  /-- `minDecodedSize(n)` (43_sizing.md R182). -/
  | mindec
  deriving DecidableEq, Repr

end Sys2Proof
end

