-- ==== Sys2Proof/WellFormed.lean ====
section
/-! DEFINITION. The checks on what is written down from outside: a command, and the platform's parameters. -/

namespace Sys2Proof

/-- A command has no operand field that could be out of range (30_encoding.md R75, R79), so every command is
well formed. -/
def Instr.wf : Instr → Bool
  | .encode => true
  | .decode => true
  | .minenc => true
  | .mindec => true

/-- The ranges of the open parameters: `8 <= ADDR_W <= 32` (00_scope.md R7) and `REG_BASE` a multiple of 32 (R8). -/
def Config.Platform.wf (p : Config.Platform) : Bool :=
  decide (8 ≤ p.addrW) && decide (p.addrW ≤ 32) && decide (p.regBase % 32 = 0)

end Sys2Proof
end

