-- ==== Sys2Proof/Decode.lean ====
section
/-! DEFINITION. The command decoder, total over all 32-bit words (30_encoding.md R72 to R74), and the encoder of a
command, both written from R73's table. -/

namespace Sys2Proof

/-- Why a word is no command. The spec has one outcome, `Illegal` (R74); the two names say which of its tests the
word fails. -/
inductive Illegal where
  /-- `v[31:3]` is not zero (R72). -/
  | reservedBits
  /-- `v[31:3]` is zero and `v[2:0]` is 0, 5, 6 or 7 (R73). -/
  | reservedOp
  deriving DecidableEq, Repr

/-- The field OP, `v[2:0]` (10_state.md R21). -/
def cmdOp (v : Word) : BitVec 3 := v.extractLsb' 0 3

/-- The field RSVD, `v[31:3]` (10_state.md R21). -/
def cmdRsvd (v : Word) : BitVec 29 := v.extractLsb' 3 29

/-- `decodeCmd` (R74). -/
def decodeCmd (v : Word) : Except Illegal Instr :=
  if cmdRsvd v ≠ 0 then .error .reservedBits
  else if cmdOp v = 1 then .ok .encode
  else if cmdOp v = 2 then .ok .decode
  else if cmdOp v = 3 then .ok .minenc
  else if cmdOp v = 4 then .ok .mindec
  else .error .reservedOp

/-- The command codes (R73). -/
def opCode : Instr → BitVec 3
  | .encode => 1
  | .decode => 2
  | .minenc => 3
  | .mindec => 4

/-- The CMD32 word of a command: RSVD zero above OP (R72). -/
def encodeCmd (i : Instr) : Word := (0 : BitVec 29) ++ opCode i

/-- The decoder on a word given as the opcode table numbers its bits. A register word has no byte order
(20_memory.md R57) and a command is one 32-bit word (R79): bits above `nbits` are zero, and a number with a bit
above bit 31 is no command. -/
def decodeTableWord (nbits w : Nat) : Option Instr :=
  if w % 2 ^ nbits < 2 ^ 32 then (decodeCmd (BitVec.ofNat 32 (w % 2 ^ nbits))).toOption else none

end Sys2Proof
end

