-- ==== Sys2Proof/Machine/State.lean ====
section
/-! DEFINITION. Everything the spec gives the machine (10_state.md, 20_memory.md), as plain data: the host-visible
registers, the engine's registers, the shared byte memory, the platform's parameters, and the coming steps of the
interleaving of host and engine (20_memory.md R60). -/

namespace Sys2Proof.Machine

open Sys2Proof

/-- The eight host-visible registers (10_state.md R20). -/
inductive Reg where
  | cmd
  | status
  | srcAddr
  | srcLen
  | dstAddr
  | dstCap
  | result
  | fault
  deriving DecidableEq, Repr

/-- The values of `FAULT.CODE` (60_exceptions.md R200). The values 6 to 15 are never produced and are not
representable. -/
inductive FaultCode where
  | none
  | illegalCmd
  | nullAddr
  | range
  | overlap
  | busError
  deriving DecidableEq, Repr

/-- The values latched when a command is accepted (10_state.md R33), each `ADDR_W` bits. They are natural numbers
because the spec computes on natural numbers (00_scope.md R11). `e.OP` is told by the engine's constructor. -/
structure Latched where
  /-- `e.S_BASE` -/
  sBase : Nat
  /-- `e.S_LEN` -/
  sLen  : Nat
  /-- `e.D_BASE` -/
  dBase : Nat
  /-- `e.D_CAP` -/
  dCap  : Nat
  deriving DecidableEq, Repr

/-- The engine registers of phase `ENC` (10_state.md R34 to R36). -/
structure EncRegs where
  args : Latched
  /-- `e.IN`: offset of the next payload byte. -/
  inp  : Nat
  /-- `e.W`: the write cursor. -/
  w    : Nat
  /-- `e.C`: the pending code position. -/
  c    : Nat
  deriving DecidableEq, Repr

/-- The engine registers of phase `DEC_FIRST`: those decoder initialisation writes (42_decode.md R151). -/
structure FirstRegs where
  args : Latched
  /-- `e.W`: the write cursor. -/
  w    : Nat
  /-- `e.TERM` -/
  term : Bool
  deriving DecidableEq, Repr

/-- The engine registers of phase `DEC_SCAN` (10_state.md R34 to R37). -/
structure ScanRegs where
  args : Latched
  /-- `e.IN`: offset of the next frame byte. -/
  inp  : Nat
  /-- `e.W`: the write cursor. -/
  w    : Nat
  /-- `e.NEXT`: the next code position, `ADDR_W + 1` bits and exact. -/
  next : Nat
  /-- `e.CODE`: the most recent code byte. -/
  code : Byte
  /-- `e.TERM` -/
  term : Bool
  deriving DecidableEq, Repr

/-- `e.OP` in phase `SIZE`. -/
inductive Sizing where
  | minenc
  | mindec
  deriving DecidableEq, Repr

/-- `e.PHASE` with the engine registers that have a value in that phase (10_state.md R32). While IDLE the engine
registers have no value: "A model should give these registers no value while IDLE, rather than zero" (R39); each
phase carries the registers its steps read (assumption 10). -/
inductive Engine where
  | idle
  | enc (r : EncRegs)
  | decFirst (r : FirstRegs)
  | decScan (r : ScanRegs)
  | size (op : Sizing) (args : Latched)
  deriving DecidableEq, Repr

/-- `e.PHASE` alone (10_state.md R32). -/
inductive Phase where
  | idle
  | enc
  | decFirst
  | decScan
  | size
  deriving DecidableEq, Repr

/-- The fields of the eight registers (30_encoding.md R71), as `POLL <REG>.<FIELD>` names them (R81). -/
inductive RegField where
  /-- CMD.OP -/
  | cmdOp
  /-- CMD.RSVD -/
  | cmdRsvd
  /-- STATUS.BUSY -/
  | busy
  /-- STATUS.DONE -/
  | done
  /-- STATUS.FAULTED -/
  | faulted
  /-- SRC_ADDR.ADDR -/
  | srcAddr
  /-- SRC_LEN.LEN -/
  | srcLen
  /-- DST_ADDR.ADDR -/
  | dstAddr
  /-- DST_CAP.CAP -/
  | dstCap
  /-- RESULT.VALUE -/
  | result
  /-- FAULT.CODE -/
  | code
  deriving DecidableEq, Repr

/-- One step of the interleaving (20_memory.md R60): a host step, a reset, or the engine's turn. -/
inductive Event where
  /-- A host write of `size` bytes to the bus address `addr`; `REGWR` when it is a word access to the window. -/
  | regWr (addr size : Nat) (v : Word)
  /-- A host read of `size` bytes from the bus address `addr`; `REGRD` when it is a word access to the window. -/
  | regRd (addr size : Nat)
  /-- A host write of one byte of data memory. -/
  | memWr (addr : Nat) (b : Byte)
  /-- A host read of one byte of data memory. -/
  | memRd (addr : Nat)
  /-- The host's loop `POLL <REG>.<FIELD> == <v>` (30_encoding.md R81), standing before one of its reads. `gaps` says
  how many turns the engine takes between this read and the next, between that and the one after it, and so on
  (assumption 3). -/
  | poll (f : RegField) (v : Nat) (gaps : List Nat)
  /-- The platform asserts the block's reset (70_reset_and_hazards.md R230). -/
  | reset
  /-- The platform's own reset: the block's reset, with data memory cleared where the platform does so (R232). -/
  | platformReset
  /-- The engine takes its enabled step, if it has one (40_command_issue.md R111). -/
  | engine
  deriving DecidableEq, Repr

/-- What a host read returned (40_command_issue.md R101, 20_memory.md R60). The model's own record of it. -/
inductive Reply where
  | reg (r : Reg) (v : Word)
  | mem (addr : Nat) (b : Byte)
  deriving DecidableEq, Repr

/-- One performed engine byte access (20_memory.md R53). The model's own record of it. -/
structure Access where
  kind : Config.AccessKind
  addr : Nat
  data : Byte
  deriving DecidableEq, Repr

/-- The cells of data memory (20_memory.md R50), in the canonical form `Memory.wf`: addresses strictly rising, no
cell equal to what an unlisted address reads as. -/
abbrev Memory := List Host.Cell

/-- A range of addresses whose bytes hold any value: those of draw number `draw` (assumption 7). -/
structure Drawn where
  base : Nat
  size : Nat
  draw : Nat
  deriving DecidableEq, Repr

/-- The machine. -/
structure State where
  /-- The platform's parameters (00_scope.md R7, R8); no step changes them. -/
  platform : Config.Platform
  /-- SRC_ADDR (10_state.md R23). -/
  srcAddr  : Word
  /-- SRC_LEN (R24). -/
  srcLen   : Word
  /-- DST_ADDR (R25). -/
  dstAddr  : Word
  /-- DST_CAP (R26). -/
  dstCap   : Word
  /-- RESULT (R27). -/
  result   : Word
  /-- STATUS.BUSY (R22). -/
  busy     : Bool
  /-- STATUS.DONE (R22). STATUS.FAULTED is read from `fault`. -/
  done     : Bool
  /-- FAULT.CODE (R28). -/
  fault    : FaultCode
  /-- The engine-internal registers (10_state.md section 3). -/
  engine   : Engine
  /-- The shared data memory (R40; 20_memory.md R50): the bytes that have a value. -/
  mem      : Memory
  /-- The bytes of data memory that hold any value (40_command_issue.md R113): the model's own, rising and
  disjoint. -/
  drawn    : List Drawn
  /-- How many draws have been made: the model's own, for fresh free values. -/
  draws    : Nat
  /-- The coming steps of the interleaving (20_memory.md R60), first to last: the model's own (assumption 2). -/
  inputs   : List Event
  /-- What host reads returned, latest first: the model's own (assumption 15). -/
  replies  : List Reply
  /-- The engine's performed accesses, latest first: the model's own (assumption 15). -/
  trace    : List Access
  deriving DecidableEq, Repr

/-- The ways a run stops that are not states of the block. The block's own faults are states, with `FAULT.CODE`
set (60_exceptions.md R210). -/
inductive Fault where
  /-- `HAZARD_BUFFER_WRITE` (20_memory.md R62): raised by a host write to a byte of the active command's source or
  destination buffer while BUSY. Safe: the spec makes it model-only and never final. -/
  | hazardBufferWrite
  /-- Raised by a host access to a data-memory address `>= 2^ADDR_W`, which names no byte (20_memory.md R50).
  Safe. -/
  | addressOutsideMemory
  deriving DecidableEq, Repr

/-- The steps the model does not admit. -/
inductive Refusal where
  /-- An instruction whose meaning has not been written; no arm answers it. -/
  | notModelled (mnemonic : String)
  /-- Raised by a host access to the register window that is not an aligned 32-bit access: "A model refuses such an
  access" (20_memory.md R56). Safe. -/
  | registerAccessNotWord
  /-- Raised by a host register access at a bus address outside the window: it reaches another device, whose
  behaviour the spec does not give (20_memory.md R51). Safe. -/
  | outsideWindow
  deriving DecidableEq, Repr

/-- `e.PHASE`. -/
def Engine.phase : Engine → Phase
  | .idle => .idle
  | .enc _ => .enc
  | .decFirst _ => .decFirst
  | .decScan _ => .decScan
  | .size _ _ => .size

/-- `e.OP`, which has no value while IDLE (10_state.md R33, R39). -/
def Engine.op : Engine → Option Instr
  | .idle => .none
  | .enc _ => some .encode
  | .decFirst _ => some .decode
  | .decScan _ => some .decode
  | .size .minenc _ => some .minenc
  | .size .mindec _ => some .mindec

/-- `e.S_BASE`, `e.S_LEN`, `e.D_BASE` and `e.D_CAP`, which have no value while IDLE (10_state.md R33, R39). -/
def Engine.latched : Engine → Option Latched
  | .idle => .none
  | .enc r => some r.args
  | .decFirst r => some r.args
  | .decScan r => some r.args
  | .size _ l => some l

/-- The machine right after reset (10_state.md R41, R42): every host-visible register 0, the engine IDLE. Memory
lists nothing; the platform is `Config.defaultPlatform`; the model's own fields are empty (assumptions 4, 6, 7). -/
def State.reset : State where
  platform := Config.defaultPlatform
  srcAddr := 0
  srcLen := 0
  dstAddr := 0
  dstCap := 0
  result := 0
  busy := false
  done := false
  fault := .none
  engine := .idle
  mem := []
  drawn := []
  draws := 0
  inputs := []
  replies := []
  trace := []

end Sys2Proof.Machine
end

