-- ==== Sys2Proof/Machine/Ops.lean ====
section
/-! DEFINITION. The named operations over memory, the engine's accesses, `finish`, fault entry and reset: each said
once, each used by every command. -/

namespace Sys2Proof.Machine

open Sys2Proof Config

/-! ### The platform (00_scope.md R8, 20_memory.md R51) -/

/-- Whether `addr` is in the `size` addresses from `base`. -/
def inRange (base size addr : Nat) : Bool := decide (base ≤ addr) && decide (addr < base + size)

/-- Whether a region of the admission map admits an access. -/
def regionAdmits (r : MemRegion) (kind : AccessKind) (addr : Nat) : Bool :=
  inRange r.base r.size addr &&
    match kind with
    | .read => r.readable
    | .write => r.writable

/-- `2^ADDR_W`, the number of bytes of data memory (20_memory.md R50). -/
def memSize (p : Platform) : Nat := 2 ^ p.addrW

/-- Whether the platform routes a data-memory address to the register window (20_memory.md R51). -/
def inWindow (p : Platform) (addr : Nat) : Bool := p.windowInMemory && inRange p.regBase 32 addr

/-- `MemOK(addr, kind)` (00_scope.md R8): false for what is no `ADDR_W`-bit address and for an access routed to
the block's own register window (20_memory.md R51), and otherwise what the platform's map admits. -/
def memOK (p : Platform) (kind : AccessKind) (addr : Nat) : Bool :=
  decide (addr < memSize p) && !inWindow p addr && p.memMap.any (fun r => regionAdmits r kind addr)

/-! ### The cells of data memory -/

/-- The canonical form from an address on: strictly rising, no cell equal to what an unlisted address reads as. -/
def Memory.wfFrom : Nat → Memory → Bool
  | _, [] => true
  | lo, (a, b) :: m => decide (lo ≤ a) && decide (b ≠ unlistedByte) && Memory.wfFrom (a + 1) m

/-- The canonical form of the cells. -/
def Memory.wf (m : Memory) : Bool := Memory.wfFrom 0 m

/-- The byte the cells give an address. -/
def Memory.get : Memory → Nat → Byte
  | [], _ => unlistedByte
  | (k, b) :: m, a => if k = a then b else Memory.get m a

/-- Insert or replace a cell at its place in rising order. -/
def Memory.put : Memory → Nat → Byte → Memory
  | [], a, b => [(a, b)]
  | (k, c) :: m, a, b =>
    if a < k then (a, b) :: (k, c) :: m
    else if a = k then (a, b) :: m
    else (k, c) :: Memory.put m a b

/-- Drop the cells of the `size` addresses from `base`. -/
def Memory.clear (m : Memory) (base size : Nat) : Memory := m.filter (fun cell => !inRange base size cell.1)

/-- Write a byte: the byte an unlisted address reads as drops the cell. -/
def Memory.set (m : Memory) (a : Nat) (b : Byte) : Memory :=
  if b = unlistedByte then m.clear a 1 else m.put a b

/-! ### The bytes that hold any value (40_command_issue.md R113) -/

/-- The ranges are non-empty, rising and disjoint from an address on. -/
def Drawn.wfFrom : Nat → List Drawn → Bool
  | _, [] => true
  | lo, d :: ds => decide (lo ≤ d.base) && decide (0 < d.size) && Drawn.wfFrom (d.base + d.size) ds

/-- The canonical form of the drawn ranges. -/
def Drawn.wf (ds : List Drawn) : Bool := Drawn.wfFrom 0 ds

/-- The number of the draw an address holds, if it holds one. -/
def Drawn.find : List Drawn → Nat → Option Nat
  | [], _ => none
  | d :: ds, a => if inRange d.base d.size a then some d.draw else Drawn.find ds a

/-- What is left of one range without the `size` addresses from `base`. -/
def Drawn.without (base size : Nat) (d : Drawn) : List Drawn :=
  (if d.base < min base (d.base + d.size) then [⟨d.base, min base (d.base + d.size) - d.base, d.draw⟩] else []) ++
  (if max (base + size) d.base < d.base + d.size then
    [⟨max (base + size) d.base, d.base + d.size - max (base + size) d.base, d.draw⟩] else [])

/-- Take the `size` addresses from `base` out of every range. -/
def Drawn.carve (ds : List Drawn) (base size : Nat) : List Drawn := ds.flatMap (Drawn.without base size)

/-- Put a range at its place in rising order. -/
def Drawn.insert (x : Drawn) : List Drawn → List Drawn
  | [] => [x]
  | d :: ds => if x.base < d.base then x :: d :: ds else d :: Drawn.insert x ds

/-! ### Data memory (20_memory.md R50): the cells and the drawn ranges together -/

/-- The canonical form of data memory: both parts canonical, and no cell under a drawn range. -/
def State.memWf (s : State) : Bool :=
  Memory.wf s.mem && Drawn.wf s.drawn && s.mem.all (fun cell => (Drawn.find s.drawn cell.1).isNone)

/-- The byte of data memory at an address: the last one written there (20_memory.md R60), or a free value where
the byte holds any value (40_command_issue.md R113). -/
def State.byteAt (s : State) (a : Nat) : Byte :=
  match Drawn.find s.drawn a with
  | some d => freeByte d a
  | none => s.mem.get a

/-- Write one byte of data memory. -/
def State.setByte (s : State) (a : Nat) (b : Byte) : State :=
  { s with mem := s.mem.set a b, drawn := Drawn.carve s.drawn a 1 }

/-- Make the `size` bytes from `base` hold any value: one fresh draw (40_command_issue.md R113). -/
def State.drawBytes (s : State) (base size : Nat) : State :=
  if size = 0 then s
  else { s with mem := s.mem.clear base size,
                drawn := Drawn.insert ⟨base, size, s.draws⟩ (Drawn.carve s.drawn base size),
                draws := s.draws + 1 }

/-! ### Completion and fault entry -/

/-- `finish(v)` (40_command_issue.md R110). -/
def State.finish (s : State) (v : Nat) : State :=
  { s with result := BitVec.ofNat 32 v, busy := false, done := true, engine := .idle }

/-- `finish(v)` of ENCODE or DECODE: with result 0, every byte of the destination buffer holds any value
(40_command_issue.md R113), a DECODE of an empty payload included (42_decode.md R168). -/
def State.finishBuffers (s : State) (l : Latched) (v : Nat) : State :=
  if v = 0 then (s.finish 0).drawBytes l.dBase l.dCap else s.finish v

/-- Fault entry `raise Fault(code)` (60_exceptions.md R210). CODE is written only while it is 0 (10_state.md R28). -/
def State.raiseFault (s : State) (code : FaultCode) : State :=
  { s with fault := if s.fault = .none then code else s.fault,
           busy := false, done := false, result := 0, engine := .idle }

/-- BUS_ERROR at a refused access (60_exceptions.md R207): fault entry, after which the destination buffer holds any
value (R210). -/
def State.busError (s : State) (l : Latched) : State :=
  (s.raiseFault .busError).drawBytes l.dBase l.dCap

/-! ### The engine's byte accesses (20_memory.md R53) -/

/-- Record a performed access. -/
def State.logAccess (s : State) (kind : AccessKind) (a : Nat) (b : Byte) : State :=
  { s with trace := ⟨kind, a, b⟩ :: s.trace }

/-- `b <- MemRead(a, 1)` and the rest of the step. A refused access is not performed, the rest does not run and
BUS_ERROR is raised (60_exceptions.md R207). -/
def State.memRead (s : State) (l : Latched) (a : Nat) (rest : Byte → State → State) : State :=
  if memOK s.platform .read a then rest (s.byteAt a) (s.logAccess .read a (s.byteAt a)) else s.busError l

/-- `MemWrite(a, 1, b)` and the rest of the step, refused as `State.memRead` is (60_exceptions.md R207). -/
def State.memWrite (s : State) (l : Latched) (a : Nat) (b : Byte) (rest : State → State) : State :=
  if memOK s.platform .write a then rest ((s.setByte a b).logAccess .write a b) else s.busError l

/-- Put new values into the engine registers. -/
def State.setEngine (s : State) (e : Engine) : State := { s with engine := e }

/-- Put another list of coming events. -/
def State.withInputs (s : State) (events : List Event) : State := { s with inputs := events }

/-! ### Reset -/

/-- The buffers of the active command (20_memory.md R54). The sizing commands have none: they make no memory access
and leave SRC_ADDR, DST_ADDR and DST_CAP unused (30_encoding.md R75; assumption 9). -/
def Engine.buffers : Engine → Option Latched
  | .idle => none
  | .enc r => some r.args
  | .decFirst r => some r.args
  | .decScan r => some r.args
  | .size _ _ => none

/-- The registers' part of reset (70_reset_and_hazards.md R230; 10_state.md R41, R42). -/
def State.resetRegs (s : State) : State :=
  { s with srcAddr := 0, srcLen := 0, dstAddr := 0, dstCap := 0, result := 0, busy := false, done := false,
           fault := .none, engine := .idle }

/-- Data memory cleared: every byte reads 0, which is what an unlisted address reads as (assumption 19). -/
def State.clearMemory (s : State) : State := { s with mem := [], drawn := [] }

/-- The reset event (70_reset_and_hazards.md R230 to R232): memory is unchanged, except that the destination buffer
of an abandoned command holds any value (R231). -/
def State.resetBlock (s : State) : State :=
  match s.engine.buffers with
  | some l => s.resetRegs.drawBytes l.dBase l.dCap
  | none => s.resetRegs

/-- The platform's own reset (70_reset_and_hazards.md R232): it resets the block, and it clears data memory first where
the platform does so. The destination of an abandoned command holds any value either way (R231; assumption 19). -/
def State.resetPlatform (s : State) : State :=
  if s.platform.resetClearsMemory then s.clearMemory.resetBlock else s.resetBlock

end Sys2Proof.Machine
end

