-- ==== Sys2Proof/Machine/Operands.lean ====
section
/-! DEFINITION. A command's operands: the fields of the argument registers, their latching, and the precondition
checks of ENCODE and DECODE (30_encoding.md R75, 40_command_issue.md R105 to R108). -/

namespace Sys2Proof.Machine

open Sys2Proof Config

/-- The low `ADDR_W` bits of a word as a number: a register's field (10_state.md R23 to R27). -/
def fieldNat (p : Platform) (v : Word) : Nat := v.toNat % memSize p

/-- A word with the bits above `ADDR_W - 1` zero: what a register holds after a write, and what it reads as
(10_state.md R23 to R27). -/
def fieldWord (p : Platform) (v : Word) : Word := BitVec.ofNat 32 (fieldNat p v)

/-- The values a command latches (40_command_issue.md R105, 10_state.md R33). -/
def State.latch (s : State) : Latched where
  sBase := fieldNat s.platform s.srcAddr
  sLen := fieldNat s.platform s.srcLen
  dBase := fieldNat s.platform s.dstAddr
  dCap := fieldNat s.platform s.dstCap

/-- The null check's condition (40_command_issue.md R106). -/
def nullBase (l : Latched) : Bool := decide (l.sBase = 0) || decide (l.dBase = 0)

/-- The range check's condition, with exact sums (40_command_issue.md R107). -/
def wrapsAround (p : Platform) (l : Latched) : Bool :=
  decide (l.sBase + l.sLen > memSize p) || decide (l.dBase + l.dCap > memSize p)

/-- The overlap check's condition (40_command_issue.md R108). -/
def overlapping (l : Latched) : Bool :=
  decide (l.sLen > 0) && decide (l.dCap > 0) && decide (l.sBase < l.dBase + l.dCap) &&
    decide (l.dBase < l.sBase + l.sLen)

/-- The checks of ENCODE and DECODE in their order (60_exceptions.md R209): the first that fails gives the fault. -/
def bufferFault (p : Platform) (l : Latched) : Option FaultCode :=
  if nullBase l then some .nullAddr
  else if wrapsAround p l then some .range
  else if overlapping l then some .overlap
  else none

end Sys2Proof.Machine
end

