-- ==== Sys2Proof/Machine/Flags.lean ====
section
/-! DEFINITION. STATUS and FAULT as words (10_state.md R22, R28), and the flag changes of acceptance
(40_command_issue.md R105, R109). -/

namespace Sys2Proof.Machine

open Sys2Proof Config

/-- The value of FAULT.CODE (60_exceptions.md R200). -/
def faultCodeBits : FaultCode → BitVec 4
  | .none => 0
  | .illegalCmd => 1
  | .nullAddr => 2
  | .range => 3
  | .overlap => 4
  | .busError => 5

/-- FAULT as a word: CODE `[3:0]`, zero above (10_state.md R28). -/
def faultWord (c : FaultCode) : Word := (0 : BitVec 28) ++ faultCodeBits c

/-- STATUS.FAULTED: 1 exactly when `FAULT.CODE != 0` (10_state.md R22). -/
def State.faulted (s : State) : Bool := decide (s.fault ≠ .none)

/-- STATUS as a word: BUSY `[0]`, DONE `[1]`, FAULTED `[2]`, zero above (10_state.md R22). -/
def State.statusWord (s : State) : Word :=
  (0 : BitVec 29) ++ BitVec.ofBool s.faulted ++ BitVec.ofBool s.done ++ BitVec.ofBool s.busy

/-- The clearing part of acceptance: RESULT and DONE (40_command_issue.md R105). -/
def State.clearResult (s : State) : State := { s with result := 0, done := false }

/-- The start step: BUSY, and the engine initialised for its command (40_command_issue.md R109). -/
def State.start (s : State) (e : Engine) : State := { s with busy := true, engine := e }

end Sys2Proof.Machine
end

