-- ==== Sys2Proof/Machine/Issue.lean ====
section
/-! DEFINITION. `issue(v)` (40_command_issue.md section 2), shared by the four commands: the two tests that ignore a
CMD write, latching and clearing, the checks, the start. -/

namespace Sys2Proof.Machine

open Sys2Proof Config

/-- A CMD write that is not ignored (40_command_issue.md R102, R103): the block is neither faulted nor busy. -/
def State.takesCommand (s : State) : Bool := decide (s.fault = .none) && !s.busy

/-- Issue of a command with buffers, ENCODE or DECODE (40_command_issue.md R102, R103, R105 to R109): a failed check
raises its fault, and otherwise the engine starts from the latched values. -/
def issueBuffers (init : Latched → Engine) (s : State) : State :=
  if s.takesCommand then
    match bufferFault s.platform s.latch with
    | some code => s.clearResult.raiseFault code
    | none => s.clearResult.start (init s.latch)
  else s

/-- Issue of a sizing command (40_command_issue.md R102, R103, R105, R109): no check is made (43_sizing.md R180). -/
def issueSizing (op : Sizing) (s : State) : State :=
  if s.takesCommand then s.clearResult.start (.size op s.latch) else s

/-- A CMD write of an illegal word (40_command_issue.md R102 to R104): it latches nothing. -/
def issueIllegal (s : State) : State :=
  if s.takesCommand then s.raiseFault .illegalCmd else s

end Sys2Proof.Machine
end

