-- ==== Sys2Proof/Machine/Decoder.lean ====
section
/-! DEFINITION. DECODE (42_decode.md): its issue, the frame parser, and the engine steps of phases DEC_FIRST and
DEC_SCAN. -/

namespace Sys2Proof.Machine

open Sys2Proof Config

/-- Decoder initialisation (42_decode.md R151). -/
def decoderInit (l : Latched) : Engine := .decFirst { args := l, w := 0, term := false }

/-- DECODE (42_decode.md R150): the CMD write that issues it. The engine then steps by `decFirstStep` and
`decScanStep`. -/
def execDecode (s : State) : Host.Outcome State Fault Refusal := .next (issueBuffers decoderInit s)

/-- The first step (42_decode.md R152, R153): byte 0 is a code whatever its value. -/
def decFirstStep (r : FirstRegs) (s : State) : State :=
  if r.args.sLen = 0 then s.finishBuffers r.args 0
  else
    s.memRead r.args r.args.sBase fun b s =>
      s.setEngine (.decScan { args := r.args, inp := 1, w := r.w, next := b.toNat, code := b, term := r.term })

/-- The frame parser's test of block boundary (42_decode.md R160). -/
def atCodePosition (r : ScanRegs) : Bool := decide (r.inp = r.next)

/-- Terminator (42_decode.md R162): the result is `e.W` only if it is the last byte of the buffer. -/
def decTerminator (r : ScanRegs) (s : State) : State :=
  if r.inp + 1 = r.args.sLen then s.finishBuffers r.args r.w else s.finishBuffers r.args 0

/-- The registers after a code byte `b` (42_decode.md R164), with `w` the cursor after the implied zero, if any. -/
def afterCode (r : ScanRegs) (b : Byte) (w : Nat) : Engine :=
  .decScan { r with w := w, code := b, next := r.inp + b.toNat, inp := r.inp + 1 }

/-- Code byte (42_decode.md R164): the implied zero of the previous block, unless its code was 255. -/
def decCode (r : ScanRegs) (b : Byte) (s : State) : State :=
  if r.code ≠ fullCode then
    s.memWrite r.args (r.args.dBase + r.w) 0 fun s => s.setEngine (afterCode r b (r.w + 1))
  else s.setEngine (afterCode r b r.w)

/-- Data byte (42_decode.md R165). -/
def decData (r : ScanRegs) (b : Byte) (s : State) : State :=
  s.memWrite r.args (r.args.dBase + r.w) b fun s =>
    s.setEngine (.decScan { r with w := r.w + 1, inp := r.inp + 1 })

/-- The engine step of phase DEC_SCAN (42_decode.md R161 to R165): terminator before capacity before code before
data. -/
def decScanStep (r : ScanRegs) (s : State) : State :=
  if r.inp < r.args.sLen then
    s.memRead r.args (r.args.sBase + r.inp) fun b s =>
      if b = terminator then decTerminator r s
      else if r.w ≥ r.args.dCap then s.finishBuffers r.args 0
      else if atCodePosition r then decCode r b s
      else decData r b s
  else s.finishBuffers r.args 0

end Sys2Proof.Machine
end

