-- ==== Sys2Proof/Machine/Encoder.lean ====
section
/-! DEFINITION. ENCODE (41_encode.md): its issue, and the engine step of phase ENC. -/

namespace Sys2Proof.Machine

open Sys2Proof Config

/-- Encoder initialisation (41_encode.md R121): the write cursor starts past the slot reserved for the first code. -/
def encoderInit (l : Latched) : Engine := .enc { args := l, inp := 0, w := 1, c := 0 }

/-- ENCODE (41_encode.md R120): the CMD write that issues it. The engine then steps by `encStep`. -/
def execEncode (s : State) : Host.Outcome State Fault Refusal := .next (issueBuffers encoderInit s)

/-- The code a block closes with, `(e.W - e.C)[7:0]` (41_encode.md R125, R127). -/
def closeCode (r : EncRegs) : Byte := BitVec.ofNat 8 (r.w - r.c)

/-- Full-block close (41_encode.md R124). -/
def encFullClose (r : EncRegs) (s : State) : State :=
  s.memWrite r.args (r.args.dBase + r.c) fullCode fun s =>
    s.setEngine (.enc { r with c := r.w, w := r.w + 1 })

/-- Zero close (41_encode.md R125). -/
def encZeroClose (r : EncRegs) (s : State) : State :=
  s.memWrite r.args (r.args.dBase + r.c) (closeCode r) fun s =>
    s.setEngine (.enc { r with c := r.w, w := r.w + 1, inp := r.inp + 1 })

/-- Copy (41_encode.md R126). -/
def encCopy (r : EncRegs) (b : Byte) (s : State) : State :=
  s.memWrite r.args (r.args.dBase + r.w) b fun s =>
    s.setEngine (.enc { r with w := r.w + 1, inp := r.inp + 1 })

/-- Final close and terminator (41_encode.md R127). -/
def encFinal (r : EncRegs) (s : State) : State :=
  if r.w ≥ r.args.dCap then s.finishBuffers r.args 0
  else
    s.memWrite r.args (r.args.dBase + r.c) (closeCode r) fun s =>
      s.memWrite r.args (r.args.dBase + r.w) terminator fun s =>
        s.finishBuffers r.args (r.w + 1)

/-- The engine step of phase ENC (41_encode.md R123 to R127): the capacity check comes first, then the full check,
then the payload byte (R122 item 4). -/
def encStep (r : EncRegs) (s : State) : State :=
  if r.inp < r.args.sLen then
    if r.w ≥ r.args.dCap then s.finishBuffers r.args 0
    else if r.w - r.c = fullSpan then encFullClose r s
    else s.memRead r.args (r.args.sBase + r.inp) fun b s => if b = 0 then encZeroClose r s else encCopy r b s
  else encFinal r s

end Sys2Proof.Machine
end

