-- ==== Sys2Proof/Machine/Sizer.lean ====
section
/-! DEFINITION. MINENC and MINDEC (43_sizing.md): their issue, their formulas, and the engine step of phase SIZE. -/

namespace Sys2Proof.Machine

open Sys2Proof Config

/-- MINENC (43_sizing.md R180): the CMD write that issues it. -/
def execMinenc (s : State) : Host.Outcome State Fault Refusal := .next (issueSizing .minenc s)

/-- MINDEC (43_sizing.md R182): the CMD write that issues it. -/
def execMindec (s : State) : Host.Outcome State Fault Refusal := .next (issueSizing .mindec s)

/-- `minEncodedSize(n)` before the overflow test (43_sizing.md R180; 90_conflicts.md C1). -/
def minEncodedSize (n : Nat) : Nat := if n = 0 then 2 else n + 2 + (n - 1) / 254

/-- `minDecodedSize(n)` (43_sizing.md R182). -/
def minDecodedSize (n : Nat) : Nat := if n < 3 then 0 else n - 2

/-- MINENC's result: 0 when the value does not fit `ADDR_W` bits (43_sizing.md R180). -/
def minencResult (p : Platform) (n : Nat) : Nat :=
  if minEncodedSize n > memSize p - 1 then 0 else minEncodedSize n

/-- The engine step of phase SIZE (43_sizing.md R180, R182). -/
def sizeStep (op : Sizing) (l : Latched) (s : State) : State :=
  match op with
  | .minenc => s.finish (minencResult s.platform l.sLen)
  | .mindec => s.finish (minDecodedSize l.sLen)

end Sys2Proof.Machine
end

