-- ==== Sys2Proof/Machine/Engine.lean ====
section
/-! DEFINITION. The engine's scheduling (40_command_issue.md R111): exactly one enabled step while a command is
active, none while IDLE. -/

namespace Sys2Proof.Machine

/-- The engine's turn: its enabled step, or nothing while IDLE (40_command_issue.md R111). -/
def engineTurn (s : State) : State :=
  match s.engine with
  | .idle => s
  | .enc r => encStep r s
  | .decFirst r => decFirstStep r s
  | .decScan r => decScanStep r s
  | .size op l => sizeStep op l s

end Sys2Proof.Machine
end

