-- ==== Sys2Proof/Machine/HostPort.lean ====
section
/-! DEFINITION. The host's side of the block: register accesses (40_command_issue.md R100, R101), memory accesses
(20_memory.md R60 to R62), reset, and the taking of one step of the interleaving. -/

namespace Sys2Proof.Machine

open Sys2Proof Config

/-- A register's offset in the window (10_state.md R20). -/
def regOffset : Reg → Nat
  | .cmd => 0x00
  | .status => 0x04
  | .srcAddr => 0x08
  | .srcLen => 0x0C
  | .dstAddr => 0x10
  | .dstCap => 0x14
  | .result => 0x18
  | .fault => 0x1C

/-- The register at an offset of the window (10_state.md R20). -/
def regOfOffset (off : Nat) : Option Reg :=
  if off = 0x00 then some .cmd
  else if off = 0x04 then some .status
  else if off = 0x08 then some .srcAddr
  else if off = 0x0C then some .srcLen
  else if off = 0x10 then some .dstAddr
  else if off = 0x14 then some .dstCap
  else if off = 0x18 then some .result
  else if off = 0x1C then some .fault
  else none

/-- The host accesses a register window at `base` admits: 32 bits wide, at an offset `0x00, 0x04, …, 0x1C`
(20_memory.md R56, 30_encoding.md R70). -/
def wordAccess (base addr size : Nat) : Bool :=
  decide (size = 4) && decide (base ≤ addr) && decide (addr < base + 32) && decide ((addr - base) % 4 = 0)

/-- The register a host bus access reaches, if the block admits the access (20_memory.md R56, 30_encoding.md R70). -/
def regAt (p : Platform) (addr size : Nat) : Option Reg :=
  if wordAccess p.regBase addr size then regOfOffset (addr - p.regBase) else none

/-- Why an access that reaches no register is refused: it touches the window in a form the block does not admit
(20_memory.md R56), or it touches no address of the window. -/
def regRefusal (p : Platform) (addr size : Nat) : Refusal :=
  if addr < p.regBase + 32 ∧ p.regBase < addr + size then .registerAccessNotWord else .outsideWindow

/-- The CMD write `issue(v)` (40_command_issue.md section 2): the decoded command, or an illegal word. -/
def cmdWrite (v : Word) (s : State) : Host.Outcome State Fault Refusal :=
  match decodeCmd v with
  | .ok i => exec i s
  | .error _ => .next (issueIllegal s)

/-- `REGWR` (40_command_issue.md R100): the argument registers take the low `ADDR_W` bits whatever STATUS holds; a
write to a read-only register has no effect. -/
def regWrite (r : Reg) (v : Word) (s : State) : Host.Outcome State Fault Refusal :=
  match r with
  | .cmd => cmdWrite v s
  | .srcAddr => .next { s with srcAddr := fieldWord s.platform v }
  | .srcLen => .next { s with srcLen := fieldWord s.platform v }
  | .dstAddr => .next { s with dstAddr := fieldWord s.platform v }
  | .dstCap => .next { s with dstCap := fieldWord s.platform v }
  | .status => .next s
  | .result => .next s
  | .fault => .next s

/-- The word a register reads as (40_command_issue.md R101): CMD reads 0, and reserved bits read 0. -/
def readReg (r : Reg) (s : State) : Word :=
  match r with
  | .cmd => 0
  | .status => s.statusWord
  | .srcAddr => fieldWord s.platform s.srcAddr
  | .srcLen => fieldWord s.platform s.srcLen
  | .dstAddr => fieldWord s.platform s.dstAddr
  | .dstCap => fieldWord s.platform s.dstCap
  | .result => fieldWord s.platform s.result
  | .fault => faultWord s.fault

/-- Give the host what its read returned. -/
def State.reply (s : State) (x : Reply) : State := { s with replies := x :: s.replies }

/-- Whether an address is in the active command's destination buffer (20_memory.md R54). -/
def State.inDest (s : State) (a : Nat) : Bool :=
  match s.engine.buffers with
  | some l => inRange l.dBase l.dCap a
  | none => false

/-- Whether an address is in the active command's source buffer (20_memory.md R54). -/
def State.inSource (s : State) (a : Nat) : Bool :=
  match s.engine.buffers with
  | some l => inRange l.sBase l.sLen a
  | none => false

/-- A host write of one byte (20_memory.md R60): a hazard on a buffer of the active command (R62), and otherwise an
ordinary write. A byte access the platform routes to the register window is refused (R51, R56). -/
def hostMemWrite (a : Nat) (b : Byte) (s : State) : Host.Outcome State Fault Refusal :=
  if memSize s.platform ≤ a then .fault .addressOutsideMemory
  else if inWindow s.platform a then .refused .registerAccessNotWord
  else if s.busy && (s.inSource a || s.inDest a) then .fault .hazardBufferWrite
  else .next (s.setByte a b)

/-- A host read of one byte (20_memory.md R60): any value from the active command's destination buffer, a fresh draw
at each read (R61), and otherwise the memory's byte. -/
def hostMemRead (a : Nat) (s : State) : Host.Outcome State Fault Refusal :=
  if memSize s.platform ≤ a then .fault .addressOutsideMemory
  else if inWindow s.platform a then .refused .registerAccessNotWord
  else if s.busy && s.inDest a then .next { s.reply (.mem a (freeByte s.draws a)) with draws := s.draws + 1 }
  else .next (s.reply (.mem a (s.byteAt a)))

/-- The register a field is in (30_encoding.md R71). -/
def fieldReg : RegField → Reg
  | .cmdOp => .cmd
  | .cmdRsvd => .cmd
  | .busy => .status
  | .done => .status
  | .faulted => .status
  | .srcAddr => .srcAddr
  | .srcLen => .srcLen
  | .dstAddr => .dstAddr
  | .dstCap => .dstCap
  | .result => .result
  | .code => .fault

/-- The field's bits in a word read from its register (30_encoding.md R71). -/
def fieldValue (p : Platform) (f : RegField) (w : Word) : Nat :=
  match f with
  | .cmdOp => (cmdOp w).toNat
  | .cmdRsvd => (cmdRsvd w).toNat
  | .busy => (w.extractLsb' 0 1).toNat
  | .done => (w.extractLsb' 1 1).toNat
  | .faulted => (w.extractLsb' 2 1).toNat
  | .srcAddr => fieldNat p w
  | .srcLen => fieldNat p w
  | .dstAddr => fieldNat p w
  | .dstCap => fieldNat p w
  | .result => fieldNat p w
  | .code => (w.extractLsb' 0 4).toNat

/-- What comes after a POLL's read of `w` (30_encoding.md R81: `if t.<FIELD> != <v> goto L`): nothing more of the loop,
or the loop again. Between two reads the engine takes the turns the interleaving gives it, and one where no number is
left, so that the loop cannot hold the engine up for ever (70_reset_and_hazards.md R241; assumption 3). -/
def afterPollRead (p : Platform) (f : RegField) (v : Nat) (gaps : List Nat) (w : Word) : List Event :=
  if fieldValue p f w = v then []
  else
    match gaps with
    | [] => [.engine, .poll f v []]
    | n :: rest => List.replicate n .engine ++ [.poll f v rest]

/-- One read of a POLL loop (30_encoding.md R81): `RD <REG> -> t`, and the test of the field. -/
def hostPollRead (f : RegField) (v : Nat) (gaps : List Nat) (s : State) : State :=
  (s.reply (.reg (fieldReg f) (readReg (fieldReg f) s))).withInputs
    (afterPollRead s.platform f v gaps (readReg (fieldReg f) s) ++ s.inputs)

/-- One event of the interleaving (20_memory.md R60). -/
def takeEvent (e : Event) (s : State) : Host.Outcome State Fault Refusal :=
  match e with
  | .regWr addr size v =>
    match regAt s.platform addr size with
    | some r => regWrite r v s
    | none => .refused (regRefusal s.platform addr size)
  | .regRd addr size =>
    match regAt s.platform addr size with
    | some r => .next (s.reply (.reg r (readReg r s)))
    | none => .refused (regRefusal s.platform addr size)
  | .memWr a b => hostMemWrite a b s
  | .memRd a => hostMemRead a s
  | .poll f v gaps => .next (hostPollRead f v gaps s)
  | .reset => .next s.resetBlock
  | .platformReset => .next s.resetPlatform
  | .engine => .next (engineTurn s)

/-- The next step of the interleaving: the first coming event, or the engine's turn when none is left, so that an
active command goes on (70_reset_and_hazards.md R241; assumption 3). -/
def takeTurn (s : State) : Host.Outcome State Fault Refusal :=
  match s.inputs with
  | [] => .next (engineTurn s)
  | e :: rest => takeEvent e (s.withInputs rest)

/-- The CMD write of a command word given as the opcode table numbers its bits, as the next event. -/
def cmdEvent (p : Platform) (nbits w : Nat) : Event := .regWr p.regBase 4 (BitVec.ofNat 32 (w % 2 ^ nbits))

end Sys2Proof.Machine
end

