-- ==== Sys2Proof/Machine/Step.lean ====
section
/-! DEFINITION. One step of the machine: one step of the interleaving of host and engine (20_memory.md R60). -/

namespace Sys2Proof.Machine

/-- One step. -/
def step (s : State) : Host.Outcome State Fault Refusal := takeTurn s

/-- The block fetches nothing (10_state.md R30): a command is the value of one CMD write. So the next instruction is
the next event of the interleaving, and placing one there is putting its CMD write first (assumption 17). -/
def State.withFetchWord (s : State) (nbits w : Nat) : State :=
  s.withInputs (cmdEvent s.platform nbits w :: s.inputs)

end Sys2Proof.Machine
end

