-- ==== Sys2Proof/Machine/Functions.lean ====
section
/-! DEFINITION. The composed effects the spec gives as pure functions (41_encode.md R129 and R130, 42_decode.md
R167), in terms of which whole runs of the engine are stated. The machine does not use them. -/

namespace Sys2Proof.Machine

open Sys2Proof Config

/-- What a composed effect writes: destination offsets and their bytes, the latest first (R130, R167: "partial map
offset -> byte"). -/
abbrev Written := List (Nat × Byte)

/-- The byte written at a destination offset, if one was. -/
def Written.at : Written → Nat → Option Byte
  | [], _ => none
  | (j, b) :: out, k => if j = k then some b else Written.at out k

/-- The loop of `encodeFn` (41_encode.md R130), one iteration a unit of fuel, over the payload bytes left. -/
def encodeLoop : Nat → List Byte → (cap c w : Nat) → Written → Nat × Written
  | 0, _, _, _, _, out => (0, out)
  | _ + 1, [], cap, c, w, out =>
    if w ≥ cap then (0, out) else (w + 1, (w, terminator) :: (c, BitVec.ofNat 8 (w - c)) :: out)
  | fuel + 1, b :: bs, cap, c, w, out =>
    if w ≥ cap then (0, out)
    else if w - c = fullSpan then encodeLoop fuel (b :: bs) cap w (w + 1) ((c, fullCode) :: out)
    else if b = 0 then encodeLoop fuel bs cap w (w + 1) ((c, BitVec.ofNat 8 (w - c)) :: out)
    else encodeLoop fuel bs cap c (w + 1) ((w, b) :: out)

/-- `encodeFn` (41_encode.md R130). An iteration consumes a byte or follows one that did, so twice the length and
one is fuel enough. -/
def encodeFn (p : List Byte) (cap : Nat) : Nat × Written := encodeLoop (2 * p.length + 1) p cap 0 1 []

/-- The loop of `decodeFn` (42_decode.md R167) over the frame bytes left, `i` being the offset of the first. -/
def decodeLoop : List Byte → (cap i next w : Nat) → (code : Byte) → Written → Nat × Written
  | [], _, _, _, _, _, out => (0, out)
  | b :: bs, cap, i, next, w, code, out =>
    if b = terminator then (if bs = [] then (w, out) else (0, out))
    else if w ≥ cap then (0, out)
    else if i = next then
      if code ≠ fullCode then decodeLoop bs cap (i + 1) (i + b.toNat) (w + 1) b ((w, 0) :: out)
      else decodeLoop bs cap (i + 1) (i + b.toNat) w b out
    else decodeLoop bs cap (i + 1) next (w + 1) code ((w, b) :: out)

/-- `decodeFn` (42_decode.md R167). -/
def decodeFn (f : List Byte) (cap : Nat) : Nat × Written :=
  match f with
  | [] => (0, [])
  | b :: bs => decodeLoop bs cap 1 b.toNat 0 b []

/-- How many bytes the scan of these frame bytes emits, capacity aside (42_decode.md R164, R165): `i` is the offset of
the first, and none of them is taken as a terminator. -/
def emitCount : List Byte → (i next : Nat) → (code : Byte) → Nat
  | [], _, _, _ => 0
  | b :: bs, i, next, code =>
    if i = next then (if code ≠ fullCode then 1 else 0) + emitCount bs (i + 1) (i + b.toNat) b
    else 1 + emitCount bs (i + 1) next code

/-- How many bytes a DECODE has emitted before it scans offset `k` of a frame (42_decode.md R166). -/
def emittedBefore (f : List Byte) (k : Nat) : Nat :=
  match f with
  | [] => 0
  | b :: bs => emitCount (bs.take (k - 1)) 1 b.toNat b

/-- The buffers a DECODE accepts if its capacity checks pass (42_decode.md R166, conditions 1 and 2). -/
abbrev AcceptedShape (f : List Byte) : Prop :=
  2 ≤ f.length ∧ f[f.length - 1]? = some terminator ∧
    ∀ k, k < f.length - 1 → 1 ≤ k → f[k]? ≠ some terminator

/-- `F(p)` of 41_encode.md R129, with the length `r` of the run of non-zero bytes read so far. -/
def fullCloses : Nat → List Byte → Nat
  | r, [] => (r - 1) / 254
  | r, b :: bs => if b = 0 then r / 254 + fullCloses 0 bs else fullCloses (r + 1) bs

/-- `L(p)`, the length of the frame of a payload (41_encode.md R129). -/
def frameLength (p : List Byte) : Nat := p.length + 2 + fullCloses 0 p

/-- The first `n` bytes a composed effect wrote. -/
def Written.bytes (out : Written) (n : Nat) : List Byte := (List.range n).map fun k => (Written.at out k).getD 0

/-- The frame of a payload: what ENCODE writes with capacity enough for it (41_encode.md R129). -/
def frameOf (p : List Byte) : List Byte :=
  Written.bytes (encodeFn p (frameLength p)).2 (encodeFn p (frameLength p)).1

/-- The bytes a buffer of data memory holds (20_memory.md R54). -/
def State.bytesAt (s : State) (base n : Nat) : List Byte := (List.range n).map fun k => s.byteAt (base + k)

end Sys2Proof.Machine
end

