-- ==== Sys2Proof/Machine/HostProgram.lean ====
section
/-! DEFINITION. The host's program operations (30_encoding.md R80) and their expansions (R81) as events. The host's
own variables and jumps are no transaction of the block (R80; assumption 23), but for the loop of POLL (R81). -/

namespace Sys2Proof.Machine

open Sys2Proof Config

/-- `WR <REG>, <v>` (R80). -/
def hostWr (p : Platform) (r : Reg) (v : Word) : Event := .regWr (p.regBase + regOffset r) 4 v

/-- `RD <REG>` (R80). -/
def hostRd (p : Platform) (r : Reg) : Event := .regRd (p.regBase + regOffset r) 4

/-- `MEMW <addr>, <bytes>` (R80): host memory writes of one byte each, in increasing address order. That each byte is
a host step of its own is the model's choice (assumption 29). -/
def hostMemw : Nat → List Byte → List Event
  | _, [] => []
  | a, b :: bs => .memWr a b :: hostMemw (a + 1) bs

/-- `MEMR <addr>, <n>` (R80): host memory reads of one byte each, in increasing address order (assumption 29). -/
def hostMemr (addr n : Nat) : List Event := (List.range n).map fun k => .memRd (addr + k)

/-- `ISSUE <mnemonic>` (R81). -/
def hostIssue (p : Platform) (i : Instr) : Event := hostWr p .cmd (encodeCmd i)

/-- `SETUP <src>, <len>, <dst>, <cap>` (R81). -/
def hostSetup (p : Platform) (src len dst cap : Word) : List Event :=
  [hostWr p .srcAddr src, hostWr p .srcLen len, hostWr p .dstAddr dst, hostWr p .dstCap cap]

/-- `POLL <REG>.<FIELD> == <v>` (R81): the loop before its first read. `gaps` is the interleaving's part, not the
expansion's: the engine's turns between one read and the next (assumption 3). -/
def hostPoll (f : RegField) (v : Nat) (gaps : List Nat) : Event := .poll f v gaps

/-- `ENCODE` or `DECODE` with its arguments (R81). -/
def hostTransform (p : Platform) (i : Instr) (src len dst cap : Word) (gaps : List Nat) : List Event :=
  hostSetup p src len dst cap ++ [hostIssue p i, hostPoll .busy 0 gaps, hostRd p .result]

/-- `MINENC <n>` or `MINDEC <n>` (R81). -/
def hostSizing (p : Platform) (i : Instr) (n : Word) (gaps : List Nat) : List Event :=
  [hostWr p .srcLen n, hostIssue p i, hostPoll .busy 0 gaps, hostRd p .result]

end Sys2Proof.Machine
end

