-- ==== Sys2Proof/Safety.lean ====
section
/-! DEFINITION. The terms claims are stated in: the invariant of the machine (10_state.md R22, R32, R38), what a
step leaves alone, and what a finished run is. -/

namespace Sys2Proof.Machine

open Sys2Proof Config

/-- Every latched value fits `ADDR_W` bits (10_state.md R33). -/
abbrev Latched.fits (p : Platform) (l : Latched) : Prop :=
  l.sBase < memSize p ∧ l.sLen < memSize p ∧ l.dBase < memSize p ∧ l.dCap < memSize p

/-- What acceptance guarantees of the buffers of an active command: the widths and the three checks
(20_memory.md R54, 40_command_issue.md R106 to R108). -/
abbrev Latched.checked (p : Platform) (l : Latched) : Prop := l.fits p ∧ bufferFault p l = none

/-- The range invariants of the engine registers (10_state.md R36, R38). -/
def Engine.inRanges (p : Platform) : Engine → Prop
  | .idle => True
  | .enc r => r.args.checked p ∧ r.c < r.w ∧ r.w ≤ max r.args.dCap 1 ∧ r.w - r.c ≤ 255 ∧ r.inp ≤ r.args.sLen
  | .decFirst r => r.args.checked p ∧ r.w = 0 ∧ r.term = false
  | .decScan r =>
    r.args.checked p ∧ 1 ≤ r.inp ∧ r.inp ≤ r.args.sLen ∧ r.w ≤ r.inp - 1 ∧ r.w ≤ r.args.dCap ∧
      r.next ≤ r.inp + 254 ∧ r.term = false
  | .size _ l => l.fits p

/-- The invariant of the machine: it holds at reset and every step keeps it. -/
structure State.Inv (s : State) : Prop where
  /-- The parameters are in their ranges (00_scope.md R7, R8). -/
  platformWf : s.platform.wf = true
  /-- Data memory is in its canonical form. -/
  memCanonical : s.memWf = true
  /-- A cell is at an address that exists (20_memory.md R50). -/
  cellsExist : ∀ cell ∈ s.mem, cell.1 < memSize s.platform
  /-- A drawn range is at addresses that exist, and its draw has been made. -/
  drawnExist : ∀ d ∈ s.drawn, d.base + d.size ≤ memSize s.platform ∧ d.draw < s.draws
  /-- The argument registers are zero above bit `ADDR_W - 1` (10_state.md R23 to R26). -/
  argsFit : s.srcAddr.toNat < memSize s.platform ∧ s.srcLen.toNat < memSize s.platform ∧
    s.dstAddr.toNat < memSize s.platform ∧ s.dstCap.toNat < memSize s.platform
  /-- RESULT is zero above bit `ADDR_W - 1` (10_state.md R27). -/
  resultFits : s.result.toNat < memSize s.platform
  /-- BUSY exactly when the engine is not IDLE (10_state.md R32). -/
  busyIff : s.busy = true ↔ s.engine ≠ .idle
  /-- BUSY and DONE never hold together (10_state.md R22). -/
  notBusyAndDone : ¬ (s.busy = true ∧ s.done = true)
  /-- A faulted block is not busy, not done, and has no result (60_exceptions.md R210, R212). -/
  faultQuiet : s.fault ≠ .none → s.busy = false ∧ s.done = false ∧ s.result = 0
  /-- RESULT is not 0 only after a finished command (10_state.md R27, 40_command_issue.md R105). -/
  resultDone : s.result ≠ 0 → s.done = true
  /-- The engine registers are in their ranges (10_state.md R38). -/
  engineRanges : s.engine.inRanges s.platform

/-- The registers the host sees apart from the flags, the platform and what the host was told are the same: what no
command and no engine step writes (10_state.md R29). -/
def SameHostSide (s t : State) : Prop :=
  t.platform = s.platform ∧ t.srcAddr = s.srcAddr ∧ t.srcLen = s.srcLen ∧ t.dstAddr = s.dstAddr ∧
    t.dstCap = s.dstCap ∧ t.replies = s.replies

/-- RESULT, BUSY, DONE and FAULT are the same. -/
def SameFlags (s t : State) : Prop :=
  t.result = s.result ∧ t.busy = s.busy ∧ t.done = s.done ∧ t.fault = s.fault

/-- Every byte of data memory reads as before, and no draw was made. -/
def SameMemory (s t : State) : Prop := (∀ a, t.byteAt a = s.byteAt a) ∧ t.draws = s.draws

/-- Every byte of data memory but the one at `a` reads as before, and no draw was made. -/
def SameMemoryBut (a : Nat) (s t : State) : Prop := (∀ x, x ≠ a → t.byteAt x = s.byteAt x) ∧ t.draws = s.draws

/-- Every byte of data memory outside the `size` bytes from `base` reads as before. -/
def SameOutside (base size : Nat) (s t : State) : Prop :=
  ∀ a, (a < base ∨ base + size ≤ a) → t.byteAt a = s.byteAt a

/-- Every one of the `size` bytes from `base` is the free value of the draw made at `s` (40_command_issue.md R113);
every other byte reads as before. -/
def DrawnBuffer (base size : Nat) (s t : State) : Prop :=
  (∀ a, base ≤ a → a < base + size → t.byteAt a = freeByte s.draws a) ∧ SameOutside base size s t

/-- The next step is the engine's turn: it is the next event, or no event is left (assumption 3). -/
abbrev State.engineNext (s : State) : Prop := s.inputs = [] ∨ s.inputs.head? = some .engine

/-- The end of a command (40_command_issue.md R110) with result `v`. -/
abbrev FinishedWith (v : Nat) (t : State) : Prop :=
  t.result = BitVec.ofNat 32 v ∧ t.busy = false ∧ t.done = true ∧ t.engine = .idle

/-- The state a fault leaves (60_exceptions.md R210). -/
abbrev FaultedWith (code : FaultCode) (t : State) : Prop :=
  t.fault = code ∧ t.busy = false ∧ t.done = false ∧ t.result = 0 ∧ t.engine = .idle

/-- The platform admits every access of the buffers (00_scope.md R8). -/
abbrev Latched.admitted (p : Platform) (l : Latched) : Prop :=
  (∀ k, k < l.sLen → memOK p .read (l.sBase + k) = true) ∧
    (∀ k, k < l.dCap → memOK p .write (l.dBase + k) = true)

/-- A run that ended well: no event left, no command active, no fault (60_exceptions.md R211: a faulted state is
never final). -/
def State.final (s : State) : Bool := s.inputs.isEmpty && !s.busy && !s.faulted

/-- `k` steps of the machine from `s` end in `t`, with no stop on the way. -/
def Runs (k : Nat) (s t : State) : Prop := Host.Core.run Sys2Proof.core k s = .next t

end Sys2Proof.Machine
end

