-- ==== Sys2Proof/Certificates/Slice0/Obligations.lean ====
section
/-! DEFINITION. The statements for the provers. Where a statement says that bytes are drawn, it names the free value
of the model (assumption 7) and says nothing about what that value is. Where a premise is `State.engineNext`, or a run
goes on with no event left, the engine's turn with no event left is the model's form of R241's fairness (assumption
3). -/

open Sys2Proof Sys2Proof.Config Sys2Proof.Machine

/-! ### Command words -/

/-- The command map on words written out from 30_encoding.md R73: the four commands, OP 0, 5, 6 and 7, and two words
with a reserved bit set. -/
def Obligations.WordsOfTheCommandMapDecode : Prop :=
  decodeCmd 0x00000001 = .ok .encode ∧ decodeCmd 0x00000002 = .ok .decode ∧
  decodeCmd 0x00000003 = .ok .minenc ∧ decodeCmd 0x00000004 = .ok .mindec ∧
  decodeCmd 0x00000000 = .error .reservedOp ∧ decodeCmd 0x00000005 = .error .reservedOp ∧
  decodeCmd 0x00000006 = .error .reservedOp ∧ decodeCmd 0x00000007 = .error .reservedOp ∧
  decodeCmd 0x00000009 = .error .reservedBits ∧ decodeCmd 0x80000001 = .error .reservedBits

/-- Decoding an encoded command gives it back. -/
def Obligations.EncodedCommandDecodesToItself : Prop :=
  ∀ i : Instr, i.wf = true → decodeCmd (encodeCmd i) = .ok i

/-- R73: the four legal words, and no other word, are commands; R72: a word is a command exactly when bits `[31:3]`
are zero and `[2:0]` is one of the four codes. -/
def Obligations.LegalWordsAreExactlyFour : Prop :=
  ∀ v : Word,
    (decodeCmd v = .ok .encode ↔ v.toNat = 1) ∧ (decodeCmd v = .ok .decode ↔ v.toNat = 2) ∧
    (decodeCmd v = .ok .minenc ↔ v.toNat = 3) ∧ (decodeCmd v = .ok .mindec ↔ v.toNat = 4) ∧
    ((∃ i, decodeCmd v = .ok i) ↔ v.toNat / 8 = 0 ∧ 1 ≤ v.toNat % 8 ∧ v.toNat % 8 ≤ 4)

/-- A step whose event is a CMD write of a command's word runs that command, at the state after the event is taken. -/
def Obligations.StepRunsTheDecodedCommand : Prop :=
  ∀ (s : State) (v : Word) (rest : List Event) (i : Instr),
    s.inputs = .regWr s.platform.regBase 4 v :: rest → decodeCmd v = .ok i →
      step s = exec i (s.withInputs rest)

/-! ### Issue -/

/-- R102, R103: a CMD write of any word while the block is faulted or busy changes nothing (but that the event is
taken). -/
def Obligations.CmdWriteIgnoredWhileFaultedOrBusy : Prop :=
  ∀ (s : State) (v : Word) (rest : List Event),
    s.inputs = .regWr s.platform.regBase 4 v :: rest → (s.fault ≠ .none ∨ s.busy = true) →
      step s = .next (s.withInputs rest)

/-- R104: an illegal word, written while the block is neither faulted nor busy, raises ILLEGAL_CMD, latches nothing and
makes no memory access. -/
def Obligations.IllegalWordRaisesIllegalCmd : Prop :=
  ∀ (s : State) (v : Word) (rest : List Event),
    s.inputs = .regWr s.platform.regBase 4 v :: rest → s.fault = .none → s.busy = false →
    (∀ i, decodeCmd v ≠ .ok i) →
      ∃ t, step s = .next t ∧ FaultedWith .illegalCmd t ∧ SameHostSide s t ∧ SameMemory s t ∧
        t.trace = s.trace ∧ t.inputs = rest

/-- ENCODE is accepted exactly as R105, R109 and R121 say, when the block is neither faulted nor busy and the three
checks pass: the arguments latched, RESULT and DONE cleared, BUSY set, the encoder initialised, and nothing else
changed. -/
def Obligations.EncodeIsAccepted : Prop :=
  ∀ (s : State) (sBase sLen dBase dCap : Nat),
    sBase = s.srcAddr.toNat % 2 ^ s.platform.addrW → sLen = s.srcLen.toNat % 2 ^ s.platform.addrW →
    dBase = s.dstAddr.toNat % 2 ^ s.platform.addrW → dCap = s.dstCap.toNat % 2 ^ s.platform.addrW →
    s.fault = .none → s.busy = false → sBase ≠ 0 → dBase ≠ 0 →
    sBase + sLen ≤ 2 ^ s.platform.addrW → dBase + dCap ≤ 2 ^ s.platform.addrW →
    (sLen = 0 ∨ dCap = 0 ∨ dBase + dCap ≤ sBase ∨ sBase + sLen ≤ dBase) →
      ∃ t, exec .encode s = .next t ∧
        t.engine = .enc { args := ⟨sBase, sLen, dBase, dCap⟩, inp := 0, w := 1, c := 0 } ∧
        t.busy = true ∧ t.done = false ∧ t.result = 0 ∧ t.fault = .none ∧
        SameHostSide s t ∧ SameMemory s t ∧ t.trace = s.trace ∧ t.inputs = s.inputs

/-- DECODE is accepted exactly as R105, R109 and R151 say, under the same conditions as ENCODE. -/
def Obligations.DecodeIsAccepted : Prop :=
  ∀ (s : State) (sBase sLen dBase dCap : Nat),
    sBase = s.srcAddr.toNat % 2 ^ s.platform.addrW → sLen = s.srcLen.toNat % 2 ^ s.platform.addrW →
    dBase = s.dstAddr.toNat % 2 ^ s.platform.addrW → dCap = s.dstCap.toNat % 2 ^ s.platform.addrW →
    s.fault = .none → s.busy = false → sBase ≠ 0 → dBase ≠ 0 →
    sBase + sLen ≤ 2 ^ s.platform.addrW → dBase + dCap ≤ 2 ^ s.platform.addrW →
    (sLen = 0 ∨ dCap = 0 ∨ dBase + dCap ≤ sBase ∨ sBase + sLen ≤ dBase) →
      ∃ t, exec .decode s = .next t ∧
        t.engine = .decFirst { args := ⟨sBase, sLen, dBase, dCap⟩, w := 0, term := false } ∧
        t.busy = true ∧ t.done = false ∧ t.result = 0 ∧ t.fault = .none ∧
        SameHostSide s t ∧ SameMemory s t ∧ t.trace = s.trace ∧ t.inputs = s.inputs

/-- MINENC and MINDEC are accepted whatever the buffer registers hold (R105, R109, R180, R182). -/
def Obligations.SizingIsAcceptedWithoutChecks : Prop :=
  ∀ (s : State) (i : Instr) (op : Sizing), (i = .minenc ∧ op = .minenc ∨ i = .mindec ∧ op = .mindec) →
    s.fault = .none → s.busy = false →
      ∃ t, exec i s = .next t ∧ t.engine = .size op s.latch ∧
        t.busy = true ∧ t.done = false ∧ t.result = 0 ∧ t.fault = .none ∧
        SameHostSide s t ∧ SameMemory s t ∧ t.trace = s.trace ∧ t.inputs = s.inputs

/-- R106: ENCODE and DECODE with a base of 0 raise NULL_ADDR, whatever the lengths are; MINENC and MINDEC are not
checked. -/
def Obligations.NullBaseRaisesNullAddr : Prop :=
  ∀ (s : State) (i : Instr), s.fault = .none → s.busy = false →
    (s.srcAddr.toNat % 2 ^ s.platform.addrW = 0 ∨ s.dstAddr.toNat % 2 ^ s.platform.addrW = 0) →
      (i = .encode ∨ i = .decode →
        ∃ t, exec i s = .next t ∧ FaultedWith .nullAddr t ∧ SameHostSide s t ∧ SameMemory s t ∧
          t.trace = s.trace ∧ t.inputs = s.inputs) ∧
      (i = .minenc ∨ i = .mindec → ∃ t, exec i s = .next t ∧ t.fault = .none ∧ t.busy = true)

/-- R107: after the null check passes, ENCODE and DECODE with a buffer that wraps past the top address raise RANGE; the
sums are exact. MINENC and MINDEC are not checked. -/
def Obligations.WrappingBufferRaisesRange : Prop :=
  ∀ (s : State) (i : Instr) (sBase sLen dBase dCap : Nat),
    sBase = s.srcAddr.toNat % 2 ^ s.platform.addrW → sLen = s.srcLen.toNat % 2 ^ s.platform.addrW →
    dBase = s.dstAddr.toNat % 2 ^ s.platform.addrW → dCap = s.dstCap.toNat % 2 ^ s.platform.addrW →
    s.fault = .none → s.busy = false → sBase ≠ 0 → dBase ≠ 0 →
    (sBase + sLen > 2 ^ s.platform.addrW ∨ dBase + dCap > 2 ^ s.platform.addrW) →
      (i = .encode ∨ i = .decode →
        ∃ t, exec i s = .next t ∧ FaultedWith .range t ∧ SameHostSide s t ∧ SameMemory s t ∧
          t.trace = s.trace ∧ t.inputs = s.inputs) ∧
      (i = .minenc ∨ i = .mindec → ∃ t, exec i s = .next t ∧ t.fault = .none ∧ t.busy = true)

/-- R108: after the null and range checks pass, ENCODE and DECODE with non-empty buffers that intersect raise OVERLAP.
MINENC and MINDEC are not checked. -/
def Obligations.IntersectingBuffersRaiseOverlap : Prop :=
  ∀ (s : State) (i : Instr) (sBase sLen dBase dCap : Nat),
    sBase = s.srcAddr.toNat % 2 ^ s.platform.addrW → sLen = s.srcLen.toNat % 2 ^ s.platform.addrW →
    dBase = s.dstAddr.toNat % 2 ^ s.platform.addrW → dCap = s.dstCap.toNat % 2 ^ s.platform.addrW →
    s.fault = .none → s.busy = false → sBase ≠ 0 → dBase ≠ 0 →
    sBase + sLen ≤ 2 ^ s.platform.addrW → dBase + dCap ≤ 2 ^ s.platform.addrW →
    0 < sLen → 0 < dCap → sBase < dBase + dCap → dBase < sBase + sLen →
      (i = .encode ∨ i = .decode →
        ∃ t, exec i s = .next t ∧ FaultedWith .overlap t ∧ SameHostSide s t ∧ SameMemory s t ∧
          t.trace = s.trace ∧ t.inputs = s.inputs) ∧
      (i = .minenc ∨ i = .mindec → ∃ t, exec i s = .next t ∧ t.fault = .none ∧ t.busy = true)

/-- The frame of all four commands: issuing one makes no memory access (R109) and writes no argument register (R29),
and BUSY, DONE and RESULT change only when the write is not ignored. -/
def Obligations.IssueFrame : Prop :=
  ∀ (i : Instr) (s t : State), exec i s = .next t →
    SameHostSide s t ∧ SameMemory s t ∧ t.mem = s.mem ∧ t.drawn = s.drawn ∧ t.trace = s.trace ∧
      t.inputs = s.inputs ∧ (s.fault ≠ .none → t = s) ∧ (s.busy = true → t = s) ∧
      (t.fault = s.fault ∨ s.fault = .none ∧ t.engine = .idle)

/-! ### ENCODE's engine steps -/

/-- R123. The drawn destination is the model's form of R113. -/
def Obligations.EncodeCapacityAbort : Prop :=
  ∀ (s : State) (r : EncRegs), s.engineNext → s.engine = .enc r → r.inp < r.args.sLen → r.w ≥ r.args.dCap →
    ∃ t, step s = .next t ∧ FinishedWith 0 t ∧ t.fault = s.fault ∧ SameHostSide s t ∧
      DrawnBuffer r.args.dBase r.args.dCap s t ∧ t.trace = s.trace ∧ t.inputs = s.inputs.tail

/-- R124: the code 255 at the pending code position; the slot at the cursor becomes the next code byte; no byte is
read and `e.IN` stays. -/
def Obligations.EncodeFullBlockClose : Prop :=
  ∀ (s : State) (r : EncRegs), s.engineNext → s.engine = .enc r → r.inp < r.args.sLen → r.w < r.args.dCap →
    r.w - r.c = 255 → memOK s.platform .write (r.args.dBase + r.c) = true →
    ∃ t, step s = .next t ∧ t.engine = .enc { r with c := r.w, w := r.w + 1 } ∧
      t.byteAt (r.args.dBase + r.c) = 0xFF ∧ SameMemoryBut (r.args.dBase + r.c) s t ∧
      SameFlags s t ∧ SameHostSide s t ∧ t.trace = ⟨.write, r.args.dBase + r.c, 0xFF⟩ :: s.trace ∧
      t.inputs = s.inputs.tail

/-- R125: a zero payload byte closes the block with its span and is not copied. -/
def Obligations.EncodeZeroClose : Prop :=
  ∀ (s : State) (r : EncRegs), s.engineNext → s.engine = .enc r → r.inp < r.args.sLen → r.w < r.args.dCap →
    r.w - r.c < 255 → memOK s.platform .read (r.args.sBase + r.inp) = true →
    s.byteAt (r.args.sBase + r.inp) = 0x00 → memOK s.platform .write (r.args.dBase + r.c) = true →
    ∃ t, step s = .next t ∧ t.engine = .enc { r with c := r.w, w := r.w + 1, inp := r.inp + 1 } ∧
      (t.byteAt (r.args.dBase + r.c)).toNat = r.w - r.c ∧ SameMemoryBut (r.args.dBase + r.c) s t ∧
      SameFlags s t ∧ SameHostSide s t ∧
      t.trace = ⟨.write, r.args.dBase + r.c, BitVec.ofNat 8 (r.w - r.c)⟩ ::
        ⟨.read, r.args.sBase + r.inp, 0x00⟩ :: s.trace ∧
      t.inputs = s.inputs.tail

/-- R126: a non-zero payload byte is copied to the cursor. -/
def Obligations.EncodeCopy : Prop :=
  ∀ (s : State) (r : EncRegs), s.engineNext → s.engine = .enc r → r.inp < r.args.sLen → r.w < r.args.dCap →
    r.w - r.c < 255 → memOK s.platform .read (r.args.sBase + r.inp) = true →
    s.byteAt (r.args.sBase + r.inp) ≠ 0x00 → memOK s.platform .write (r.args.dBase + r.w) = true →
    ∃ t, step s = .next t ∧ t.engine = .enc { r with w := r.w + 1, inp := r.inp + 1 } ∧
      t.byteAt (r.args.dBase + r.w) = s.byteAt (r.args.sBase + r.inp) ∧
      SameMemoryBut (r.args.dBase + r.w) s t ∧ SameFlags s t ∧ SameHostSide s t ∧
      t.trace = ⟨.write, r.args.dBase + r.w, s.byteAt (r.args.sBase + r.inp)⟩ ::
        ⟨.read, r.args.sBase + r.inp, s.byteAt (r.args.sBase + r.inp)⟩ :: s.trace ∧
      t.inputs = s.inputs.tail

/-- R127: with room, the final code and then the terminator, and the result is the frame length; without, result 0 and
no access. -/
def Obligations.EncodeFinalClose : Prop :=
  ∀ (s : State) (r : EncRegs), s.engineNext → s.engine = .enc r → r.inp = r.args.sLen →
    (r.w ≥ r.args.dCap → ∃ t, step s = .next t ∧ FinishedWith 0 t ∧ t.fault = s.fault ∧ SameHostSide s t ∧
      DrawnBuffer r.args.dBase r.args.dCap s t ∧ t.trace = s.trace ∧ t.inputs = s.inputs.tail) ∧
    (r.w < r.args.dCap → r.c < r.w → r.w - r.c ≤ 255 →
      memOK s.platform .write (r.args.dBase + r.c) = true → memOK s.platform .write (r.args.dBase + r.w) = true →
      ∃ t, step s = .next t ∧ FinishedWith (r.w + 1) t ∧ t.fault = s.fault ∧ SameHostSide s t ∧
        (t.byteAt (r.args.dBase + r.c)).toNat = r.w - r.c ∧ t.byteAt (r.args.dBase + r.w) = 0x00 ∧
        (∀ a, a ≠ r.args.dBase + r.c → a ≠ r.args.dBase + r.w → t.byteAt a = s.byteAt a) ∧
        t.draws = s.draws ∧
        t.trace = ⟨.write, r.args.dBase + r.w, 0x00⟩ ::
          ⟨.write, r.args.dBase + r.c, BitVec.ofNat 8 (r.w - r.c)⟩ :: s.trace ∧
        t.inputs = s.inputs.tail)

/-! ### DECODE's engine steps -/

/-- R152: an empty frame finishes with 0 and no access. -/
def Obligations.DecodeEmptyFrame : Prop :=
  ∀ (s : State) (r : FirstRegs), s.engineNext → s.engine = .decFirst r → r.args.sLen = 0 →
    ∃ t, step s = .next t ∧ FinishedWith 0 t ∧ t.fault = s.fault ∧ SameHostSide s t ∧
      DrawnBuffer r.args.dBase r.args.dCap s t ∧ t.trace = s.trace ∧ t.inputs = s.inputs.tail

/-- R153: byte 0 is the first code, whatever its value, a zero included. -/
def Obligations.DecodeInitialCode : Prop :=
  ∀ (s : State) (r : FirstRegs), s.engineNext → s.engine = .decFirst r → 1 ≤ r.args.sLen →
    memOK s.platform .read r.args.sBase = true →
    ∃ t, step s = .next t ∧
      t.engine = .decScan { args := r.args, inp := 1, w := r.w, next := (s.byteAt r.args.sBase).toNat,
                            code := s.byteAt r.args.sBase, term := r.term } ∧
      SameMemory s t ∧ SameFlags s t ∧ SameHostSide s t ∧
      t.trace = ⟨.read, r.args.sBase, s.byteAt r.args.sBase⟩ :: s.trace ∧ t.inputs = s.inputs.tail

/-- R161: input exhausted without a terminator finishes with 0 and no access. -/
def Obligations.DecodeInputExhausted : Prop :=
  ∀ (s : State) (r : ScanRegs), s.engineNext → s.engine = .decScan r → r.inp = r.args.sLen →
    ∃ t, step s = .next t ∧ FinishedWith 0 t ∧ t.fault = s.fault ∧ SameHostSide s t ∧
      DrawnBuffer r.args.dBase r.args.dCap s t ∧ t.trace = s.trace ∧ t.inputs = s.inputs.tail

/-- R162: a zero ends the scan at any position; the result is `e.W` only if it is the last byte. With result 0 the
destination holds any value (R113), an empty payload included (R168). -/
def Obligations.DecodeTerminator : Prop :=
  ∀ (s : State) (r : ScanRegs) (v : Nat), s.engineNext → s.engine = .decScan r → r.inp < r.args.sLen →
    memOK s.platform .read (r.args.sBase + r.inp) = true → s.byteAt (r.args.sBase + r.inp) = 0x00 →
    v = (if r.inp + 1 = r.args.sLen then r.w else 0) →
    ∃ t, step s = .next t ∧ FinishedWith v t ∧ t.fault = s.fault ∧ SameHostSide s t ∧
      (v ≠ 0 → SameMemory s t) ∧ (v = 0 → DrawnBuffer r.args.dBase r.args.dCap s t) ∧
      t.trace = ⟨.read, r.args.sBase + r.inp, 0x00⟩ :: s.trace ∧ t.inputs = s.inputs.tail

/-- R163: a non-zero byte of either class with the destination full finishes with 0 and no write. -/
def Obligations.DecodeCapacityAbort : Prop :=
  ∀ (s : State) (r : ScanRegs), s.engineNext → s.engine = .decScan r → r.inp < r.args.sLen →
    memOK s.platform .read (r.args.sBase + r.inp) = true → s.byteAt (r.args.sBase + r.inp) ≠ 0x00 →
    r.w ≥ r.args.dCap →
    ∃ t, step s = .next t ∧ FinishedWith 0 t ∧ t.fault = s.fault ∧ SameHostSide s t ∧
      DrawnBuffer r.args.dBase r.args.dCap s t ∧
      t.trace = ⟨.read, r.args.sBase + r.inp, s.byteAt (r.args.sBase + r.inp)⟩ :: s.trace ∧
      t.inputs = s.inputs.tail

/-- R164: a byte at the next code position emits the implied zero of the previous block, unless its code was 255, and
becomes the code; the next code position is its offset plus its value, exactly. -/
def Obligations.DecodeCodeByte : Prop :=
  ∀ (s : State) (r : ScanRegs) (b : Byte), s.engineNext → s.engine = .decScan r → r.inp < r.args.sLen →
    memOK s.platform .read (r.args.sBase + r.inp) = true → b = s.byteAt (r.args.sBase + r.inp) → b ≠ 0x00 →
    r.w < r.args.dCap → r.inp = r.next →
    (r.code ≠ 0xFF → memOK s.platform .write (r.args.dBase + r.w) = true →
      ∃ t, step s = .next t ∧
        t.engine = .decScan { r with w := r.w + 1, code := b, next := r.inp + b.toNat, inp := r.inp + 1 } ∧
        t.byteAt (r.args.dBase + r.w) = 0x00 ∧ SameMemoryBut (r.args.dBase + r.w) s t ∧
        SameFlags s t ∧ SameHostSide s t ∧
        t.trace = ⟨.write, r.args.dBase + r.w, 0x00⟩ :: ⟨.read, r.args.sBase + r.inp, b⟩ :: s.trace ∧
        t.inputs = s.inputs.tail) ∧
    (r.code = 0xFF →
      ∃ t, step s = .next t ∧
        t.engine = .decScan { r with code := b, next := r.inp + b.toNat, inp := r.inp + 1 } ∧
        SameMemory s t ∧ SameFlags s t ∧ SameHostSide s t ∧
        t.trace = ⟨.read, r.args.sBase + r.inp, b⟩ :: s.trace ∧ t.inputs = s.inputs.tail)

/-- R165: any other byte is copied to the cursor. -/
def Obligations.DecodeDataByte : Prop :=
  ∀ (s : State) (r : ScanRegs) (b : Byte), s.engineNext → s.engine = .decScan r → r.inp < r.args.sLen →
    memOK s.platform .read (r.args.sBase + r.inp) = true → b = s.byteAt (r.args.sBase + r.inp) → b ≠ 0x00 →
    r.w < r.args.dCap → r.inp ≠ r.next → memOK s.platform .write (r.args.dBase + r.w) = true →
    ∃ t, step s = .next t ∧ t.engine = .decScan { r with w := r.w + 1, inp := r.inp + 1 } ∧
      t.byteAt (r.args.dBase + r.w) = b ∧ SameMemoryBut (r.args.dBase + r.w) s t ∧
      SameFlags s t ∧ SameHostSide s t ∧
      t.trace = ⟨.write, r.args.dBase + r.w, b⟩ :: ⟨.read, r.args.sBase + r.inp, b⟩ :: s.trace ∧
      t.inputs = s.inputs.tail

/-! ### The sizing commands -/

/-- R180: MINENC, whose CMD word is 3, from its CMD write to its finish one engine step later, whatever the buffer
registers hold. That the step comes with no event left is the model's form of fairness (assumption 3), and that a result
0 leaves all memory as it was is the model's reading, since a sizing command has no destination (assumption 9). -/
def Obligations.MinencComputesMinEncodedSize : Prop :=
  decodeCmd 0x00000003 = .ok .minenc ∧ ∀ (s : State) (n v : Nat), s.inputs = [] → s.fault = .none → s.busy = false →
    n = s.srcLen.toNat % 2 ^ s.platform.addrW → v = (if n = 0 then 2 else n + 2 + (n - 1) / 254) →
    ∃ t u, exec .minenc s = .next t ∧ t.busy = true ∧ step t = .next u ∧
      FinishedWith (if v > 2 ^ s.platform.addrW - 1 then 0 else v) u ∧ u.fault = .none ∧
      SameHostSide s u ∧ SameMemory s u ∧ u.trace = s.trace

/-- R182: MINDEC, whose CMD word is 4, from its CMD write to its finish one engine step later, whatever the buffer
registers hold. That the step comes with no event left is the model's form of fairness (assumption 3), and that a result
0 leaves all memory as it was is the model's reading, since a sizing command has no destination (assumption 9). -/
def Obligations.MindecComputesMinDecodedSize : Prop :=
  decodeCmd 0x00000004 = .ok .mindec ∧ ∀ (s : State) (n : Nat), s.inputs = [] → s.fault = .none → s.busy = false →
    n = s.srcLen.toNat % 2 ^ s.platform.addrW →
    ∃ t u, exec .mindec s = .next t ∧ t.busy = true ∧ step t = .next u ∧
      FinishedWith (if n < 3 then 0 else n - 2) u ∧ u.fault = .none ∧
      SameHostSide s u ∧ SameMemory s u ∧ u.trace = s.trace

/-! ### BUS_ERROR -/

/-- R207 and R210 where the first access of the engine's step is refused: the read of phases ENC, DEC_FIRST and
DEC_SCAN, and the code write of ENCODE's full-block close and final close. The step performs no access and raises
BUS_ERROR, and the destination holds any value. -/
def Obligations.RefusedFirstAccessRaisesBusError : Prop :=
  ∀ (s : State) (l : Latched) (kind : AccessKind) (a : Nat), s.engineNext → s.fault = .none →
    ((∃ r : EncRegs, s.engine = .enc r ∧ r.args = l ∧ r.inp < l.sLen ∧ r.w < l.dCap ∧ r.w - r.c ≠ 255 ∧
        kind = .read ∧ a = l.sBase + r.inp) ∨
     (∃ r : EncRegs, s.engine = .enc r ∧ r.args = l ∧ r.inp < l.sLen ∧ r.w < l.dCap ∧ r.w - r.c = 255 ∧
        kind = .write ∧ a = l.dBase + r.c) ∨
     (∃ r : EncRegs, s.engine = .enc r ∧ r.args = l ∧ r.inp = l.sLen ∧ r.w < l.dCap ∧
        kind = .write ∧ a = l.dBase + r.c) ∨
     (∃ r : FirstRegs, s.engine = .decFirst r ∧ r.args = l ∧ 1 ≤ l.sLen ∧ kind = .read ∧ a = l.sBase) ∨
     (∃ r : ScanRegs, s.engine = .decScan r ∧ r.args = l ∧ r.inp < l.sLen ∧ kind = .read ∧
        a = l.sBase + r.inp)) →
    memOK s.platform kind a = false →
    ∃ t, step s = .next t ∧ FaultedWith .busError t ∧ SameHostSide s t ∧ DrawnBuffer l.dBase l.dCap s t ∧
      t.trace = s.trace ∧ t.inputs = s.inputs.tail

/-- R207 and R210 for a write after a performed read: copy and zero close of ENCODE, data byte and implied zero of
DECODE. The read stays performed; the write is not; BUS_ERROR is raised, and the destination holds any value. -/
def Obligations.RefusedWriteRaisesBusError : Prop :=
  ∀ (s : State) (l : Latched) (a x : Nat) (b : Byte), s.engineNext → s.fault = .none →
    memOK s.platform .read a = true → s.byteAt a = b →
    ((∃ r : EncRegs, s.engine = .enc r ∧ r.args = l ∧ r.inp < l.sLen ∧ r.w < l.dCap ∧ r.w - r.c ≠ 255 ∧
        a = l.sBase + r.inp ∧ x = l.dBase + (if b = 0x00 then r.c else r.w)) ∨
     (∃ r : ScanRegs, s.engine = .decScan r ∧ r.args = l ∧ r.inp < l.sLen ∧ r.w < l.dCap ∧ b ≠ 0x00 ∧
        (r.inp = r.next → r.code ≠ 0xFF) ∧ a = l.sBase + r.inp ∧ x = l.dBase + r.w)) →
    memOK s.platform .write x = false →
    ∃ t, step s = .next t ∧ FaultedWith .busError t ∧ SameHostSide s t ∧ DrawnBuffer l.dBase l.dCap s t ∧
      t.trace = ⟨.read, a, b⟩ :: s.trace ∧ t.inputs = s.inputs.tail

/-- R207's example: in the final close a refused terminator write follows a performed code write. -/
def Obligations.RefusedTerminatorFollowsCodeWrite : Prop :=
  ∀ (s : State) (r : EncRegs), s.engineNext → s.fault = .none → s.engine = .enc r → r.inp = r.args.sLen →
    r.c < r.w → r.w < r.args.dCap → memOK s.platform .write (r.args.dBase + r.c) = true →
    memOK s.platform .write (r.args.dBase + r.w) = false →
    ∃ t, step s = .next t ∧ FaultedWith .busError t ∧ SameHostSide s t ∧
      DrawnBuffer r.args.dBase r.args.dCap s t ∧
      t.trace = ⟨.write, r.args.dBase + r.c, BitVec.ofNat 8 (r.w - r.c)⟩ :: s.trace ∧
      t.inputs = s.inputs.tail

/-! ### The host's side -/

/-- R100 with R23 to R26: a write to an argument register takes effect whatever STATUS holds, discards the bits above
`ADDR_W - 1`, and changes nothing else. -/
def Obligations.ArgumentWriteTakesEffect : Prop :=
  ∀ (s : State) (r : Reg) (off : Nat) (v : Word) (rest : List Event),
    (r, off) ∈ [(Reg.srcAddr, 0x08), (Reg.srcLen, 0x0C), (Reg.dstAddr, 0x10), (Reg.dstCap, 0x14)] →
    s.inputs = .regWr (s.platform.regBase + off) 4 v :: rest →
    ∃ t, step s = .next t ∧ (readReg r t).toNat = v.toNat % 2 ^ s.platform.addrW ∧
      (∀ r', r' ≠ r → readReg r' t = readReg r' s) ∧ SameFlags s t ∧ SameMemory s t ∧ t.platform = s.platform ∧
      t.engine = s.engine ∧ t.replies = s.replies ∧ t.trace = s.trace ∧ t.inputs = rest

/-- R100, R22, R27, R28: a write to STATUS, RESULT or FAULT changes nothing. -/
def Obligations.ReadOnlyWriteIsIgnored : Prop :=
  ∀ (s : State) (off : Nat) (v : Word) (rest : List Event), off ∈ [0x04, 0x18, 0x1C] →
    s.inputs = .regWr (s.platform.regBase + off) 4 v :: rest → step s = .next (s.withInputs rest)

/-- R101: a register read returns the register's fields, zero in every reserved bit and 0 for CMD, with no side
effect. -/
def Obligations.RegisterReadReturnsFields : Prop :=
  ∀ (s : State) (r : Reg) (off : Nat) (rest : List Event),
    (r, off) ∈ [(Reg.cmd, 0x00), (Reg.status, 0x04), (Reg.srcAddr, 0x08), (Reg.srcLen, 0x0C),
      (Reg.dstAddr, 0x10), (Reg.dstCap, 0x14), (Reg.result, 0x18), (Reg.fault, 0x1C)] →
    s.inputs = .regRd (s.platform.regBase + off) 4 :: rest →
    ∃ w : Word, step s = .next { s.withInputs rest with replies := .reg r w :: s.replies } ∧
      (r = .cmd → w = 0) ∧
      (r = .status → w.toNat = (if s.busy then 1 else 0) + (if s.done then 2 else 0) +
        (if s.fault = .none then 0 else 4)) ∧
      (r = .srcAddr → w.toNat = s.srcAddr.toNat % 2 ^ s.platform.addrW) ∧
      (r = .srcLen → w.toNat = s.srcLen.toNat % 2 ^ s.platform.addrW) ∧
      (r = .dstAddr → w.toNat = s.dstAddr.toNat % 2 ^ s.platform.addrW) ∧
      (r = .dstCap → w.toNat = s.dstCap.toNat % 2 ^ s.platform.addrW) ∧
      (r = .result → w.toNat = s.result.toNat % 2 ^ s.platform.addrW) ∧
      (r = .fault → w.toNat = match s.fault with
        | .none => 0 | .illegalCmd => 1 | .nullAddr => 2 | .range => 3 | .overlap => 4 | .busError => 5)

/-- R56: an access that touches the window and is not 32 bits wide at a multiple of 4 is refused, read or write. -/
def Obligations.NonWordRegisterAccessIsRefused : Prop :=
  ∀ (s : State) (addr size : Nat) (v : Word) (rest : List Event),
    (s.inputs = .regWr addr size v :: rest ∨ s.inputs = .regRd addr size :: rest) →
    addr < s.platform.regBase + 32 → s.platform.regBase < addr + size →
    (size ≠ 4 ∨ addr < s.platform.regBase ∨ (addr - s.platform.regBase) % 4 ≠ 0) →
      step s = .refused .registerAccessNotWord

/-- R62: while BUSY, a host write to a byte of the active command's source or destination buffer is the model-only
fault HAZARD_BUFFER_WRITE. The sizing commands have no buffers (assumption 9). -/
def Obligations.HostWriteToActiveBufferIsHazard : Prop :=
  ∀ (s : State) (l : Latched) (a : Nat) (b : Byte) (rest : List Event), s.inputs = .memWr a b :: rest →
    s.busy = true → s.engine.buffers = some l → a < 2 ^ s.platform.addrW → inWindow s.platform a = false →
    (l.sBase ≤ a ∧ a < l.sBase + l.sLen ∨ l.dBase ≤ a ∧ a < l.dBase + l.dCap) →
      step s = .fault .hazardBufferWrite

/-- R62's last point and R60: any other host write of a byte has its ordinary effect. -/
def Obligations.HostWriteOutsideActiveBuffers : Prop :=
  ∀ (s : State) (a : Nat) (b : Byte) (rest : List Event), s.inputs = .memWr a b :: rest →
    a < 2 ^ s.platform.addrW → inWindow s.platform a = false →
    (s.busy = true → ∀ l, s.engine.buffers = some l →
      ¬ (l.sBase ≤ a ∧ a < l.sBase + l.sLen) ∧ ¬ (l.dBase ≤ a ∧ a < l.dBase + l.dCap)) →
    ∃ t, step s = .next t ∧ t.byteAt a = b ∧ SameMemoryBut a s t ∧ SameFlags s t ∧ SameHostSide s t ∧
      t.engine = s.engine ∧ t.trace = s.trace ∧ t.inputs = rest

/-- R61 and R60: while BUSY a host read of the active destination returns a fresh free value; every other host read
returns the memory's byte. Neither changes memory. That a busy MINENC or MINDEC has no destination, so that the second
clause covers it, is the model's reading (assumption 9). -/
def Obligations.HostReadOfMemory : Prop :=
  ∀ (s : State) (a : Nat) (rest : List Event), s.inputs = .memRd a :: rest →
    a < 2 ^ s.platform.addrW → inWindow s.platform a = false →
    ((s.busy = true ∧ ∃ l, s.engine.buffers = some l ∧ l.dBase ≤ a ∧ a < l.dBase + l.dCap) →
      step s = .next { s.withInputs rest with
        replies := .mem a (freeByte s.draws a) :: s.replies, draws := s.draws + 1 }) ∧
    ((s.busy = true → ∀ l, s.engine.buffers = some l → ¬ (l.dBase ≤ a ∧ a < l.dBase + l.dCap)) →
      step s = .next { s.withInputs rest with replies := .mem a (s.byteAt a) :: s.replies })

/-! ### Reset -/

/-- R230 to R232: a reset, the block's or the platform's own, sets every host-visible register to 0 and the engine to
IDLE. Memory is unchanged, but the destination of an abandoned command holds any value. On a platform whose own reset
clears memory (U15), that reset leaves every other byte 0.
That an abandoned MINENC or MINDEC has no destination to draw is the model's reading (assumption 9), and so is what the
platform's own reset does (assumption 19). -/
def Obligations.ResetEventClearsTheBlock : Prop :=
  ∀ (s : State) (rest : List Event), (s.inputs = .reset :: rest ∨ s.inputs = .platformReset :: rest) →
    ∃ t, step s = .next t ∧ t.srcAddr = 0 ∧ t.srcLen = 0 ∧ t.dstAddr = 0 ∧ t.dstCap = 0 ∧ t.result = 0 ∧
      t.busy = false ∧ t.done = false ∧ t.fault = .none ∧ t.engine = .idle ∧
      (∀ l, s.engine.buffers = some l →
        ∀ a, l.dBase ≤ a → a < l.dBase + l.dCap → t.byteAt a = freeByte s.draws a) ∧
      (s.inputs = .reset :: rest ∨ s.platform.resetClearsMemory = false →
        (∀ l, s.engine.buffers = some l → DrawnBuffer l.dBase l.dCap s t) ∧
        (s.engine.buffers = none → SameMemory s t)) ∧
      (s.inputs = .platformReset :: rest → s.platform.resetClearsMemory = true →
        ∀ a, (∀ l, s.engine.buffers = some l → ¬ (l.dBase ≤ a ∧ a < l.dBase + l.dCap)) → t.byteAt a = 0x00) ∧
      t.platform = s.platform ∧ t.replies = s.replies ∧ t.trace = s.trace ∧ t.inputs = rest

/-- R41, R42: the registers of the state after reset, as a host reads them, and the engine's phase. -/
def Obligations.ResetStateRegisters : Prop :=
  (∀ r, readReg r State.reset = 0) ∧ State.reset.engine = .idle ∧ State.reset.fault = .none

/-! ### The machine as a whole -/

/-- The invariant holds at reset. -/
def Obligations.InvariantAtReset : Prop := State.reset.Inv

/-- The invariant is kept by every step, from every state: memory canonical, BUSY exactly when the engine is active,
BUSY and DONE exclusive, a faulted block quiet, and the cursors in their ranges. -/
def Obligations.EveryStepKeepsTheInvariant : Prop :=
  ∀ s t : State, s.Inv → step s = .next t → t.Inv

/-- R55: the engine reads only the active source buffer and writes only the active destination buffer; the sizing
commands and the idle engine access nothing. R55 is an inference the spec marks as its own. -/
def Obligations.EngineAccessesStayInBounds : Prop :=
  ∀ s : State, s.Inv → s.engineNext →
    ∃ t new, step s = .next t ∧ t.trace = new ++ s.trace ∧
      ∀ x ∈ new, ∃ l, s.engine.buffers = some l ∧
        (x.kind = .read ∧ l.sBase ≤ x.addr ∧ x.addr < l.sBase + l.sLen ∨
         x.kind = .write ∧ l.dBase ≤ x.addr ∧ x.addr < l.dBase + l.dCap)

/-- The memory side of R55: an engine step changes no byte outside the active destination buffer, so no byte of the
source buffer. That a sizing command's step changes no byte at all, with result 0 too, is the model's reading
(assumption 9). -/
def Obligations.EngineChangesOnlyTheDestination : Prop :=
  ∀ s : State, s.Inv → s.engineNext →
    ∃ t, step s = .next t ∧
      (s.engine.buffers = none → SameMemory s t) ∧
      (∀ l, s.engine.buffers = some l →
        SameOutside l.dBase l.dCap s t ∧
        ∀ a, l.sBase ≤ a → a < l.sBase + l.sLen → t.byteAt a = s.byteAt a)

/-- R28, R211, R212: a fault code stays until a reset, the block's or the platform's. While it stands no command runs and the engine makes no access. -/
def Obligations.FaultStaysUntilReset : Prop :=
  ∀ s t : State, s.Inv → s.fault ≠ .none → s.inputs.head? ≠ some .reset → s.inputs.head? ≠ some .platformReset →
    step s = .next t →
    t.fault = s.fault ∧ t.busy = false ∧ t.done = false ∧ t.result = 0 ∧ t.engine = .idle ∧ t.trace = s.trace

/-- R29: the argument registers are written only by host register writes (and reset). No command, no engine step and no
other host access writes them. -/
def Obligations.OnlyHostWritesChangeArguments : Prop :=
  ∀ s t : State, step s = .next t → s.inputs.head? ≠ some .reset → s.inputs.head? ≠ some .platformReset →
    (∀ addr size v r, s.inputs.head? = some (.regWr addr size v) → regAt s.platform addr size = some r →
      r ≠ .srcAddr ∧ r ≠ .srcLen ∧ r ≠ .dstAddr ∧ r ≠ .dstCap) →
    t.srcAddr = s.srcAddr ∧ t.srcLen = s.srcLen ∧ t.dstAddr = s.dstAddr ∧ t.dstCap = s.dstCap

/-- R33, R236: a register write other than to CMD does not affect the active command. Made before an engine step or
after it, it leaves the same state. -/
def Obligations.RegisterWriteCommutesWithEngineStep : Prop :=
  ∀ (s t : State) (r : Reg) (v : Word), r ≠ .cmd → regWrite r v s = .next t →
    regWrite r v (engineTurn s) = .next (engineTurn t)

/-- R117: what an engine step does to the engine, RESULT and the flags depends on the latched arguments, the cursors and
the source bytes alone. Two states that agree on these step alike, whatever the argument registers, the destination
and the rest of memory hold. -/
def Obligations.EngineStepDependsOnSourceOnly : Prop :=
  ∀ s₁ s₂ : State, s₂.platform = s₁.platform → s₂.engine = s₁.engine → SameFlags s₁ s₂ →
    (∀ l, s₁.engine.buffers = some l →
      ∀ a, l.sBase ≤ a → a < l.sBase + l.sLen → s₂.byteAt a = s₁.byteAt a) →
    (engineTurn s₂).engine = (engineTurn s₁).engine ∧ SameFlags (engineTurn s₁) (engineTurn s₂)

/-! ### Whole commands -/

/-- R130 (with R112 and R113): ENCODE, on buffers the platform admits and with no further event, runs to `finish` in at
most `S_LEN + floor(S_LEN / 254) + 1` engine steps (R116). That the engine goes on with no event left is the model's form of fairness (assumption 3).
RESULT is that of `encodeFn`. With a result, the
destination holds what `encodeFn` writes and is otherwise unchanged; with result 0 it holds any value. No byte outside
the destination changes, and there is no fault. -/
def Obligations.EncodeRunComputesEncodeFn : Prop :=
  ∀ (s : State) (l : Latched) (f : Nat × Written), s.platform.wf = true → s.inputs = [] → s.fault = .none →
    s.busy = false → l = s.latch → bufferFault s.platform l = none → l.admitted s.platform →
    f = encodeFn (s.bytesAt l.sBase l.sLen) l.dCap →
    ∃ t k u, exec .encode s = .next t ∧ k ≤ l.sLen + l.sLen / 254 + 1 ∧ Runs k t u ∧
      FinishedWith f.1 u ∧ u.fault = .none ∧ SameHostSide s u ∧ SameOutside l.dBase l.dCap s u ∧
      (f.1 ≠ 0 → ∀ j, j < l.dCap →
        u.byteAt (l.dBase + j) = (Written.at f.2 j).getD (s.byteAt (l.dBase + j))) ∧
      (f.1 = 0 → DrawnBuffer l.dBase l.dCap s u)

/-- R167 (with R112 and R113): DECODE, on buffers the platform admits and with no further event, runs to `finish` in at
most `S_LEN + 1` engine steps (R116). That the engine goes on with no event left is the model's form of fairness
(assumption 3). RESULT is that of `decodeFn`. With a result, the destination holds what
`decodeFn` writes and is otherwise unchanged; with result 0 it holds any value. No byte outside the destination
changes, and there is no fault. -/
def Obligations.DecodeRunComputesDecodeFn : Prop :=
  ∀ (s : State) (l : Latched) (f : Nat × Written), s.platform.wf = true → s.inputs = [] → s.fault = .none →
    s.busy = false → l = s.latch → bufferFault s.platform l = none → l.admitted s.platform →
    f = decodeFn (s.bytesAt l.sBase l.sLen) l.dCap →
    ∃ t k u, exec .decode s = .next t ∧ k ≤ l.sLen + 1 ∧ Runs k t u ∧
      FinishedWith f.1 u ∧ u.fault = .none ∧ SameHostSide s u ∧ SameOutside l.dBase l.dCap s u ∧
      (f.1 ≠ 0 → ∀ j, j < l.dCap →
        u.byteAt (l.dBase + j) = (Written.at f.2 j).getD (s.byteAt (l.dBase + j))) ∧
      (f.1 = 0 → DrawnBuffer l.dBase l.dCap s u)

/-- R116, whatever the platform admits: every accepted command ends, by `finish` or by a fault, within its bound of
engine steps, when no further event comes: the engine then goes on by the model's form of fairness (assumption 3). -/
def Obligations.AcceptedCommandEndsWithinBound : Prop :=
  ∀ (i : Instr) (s t : State), s.inputs = [] → s.busy = false → exec i s = .next t → t.busy = true →
    ∃ k u, Runs k t u ∧ u.busy = false ∧ u.engine = .idle ∧
      (i = .encode → k ≤ s.latch.sLen + s.latch.sLen / 254 + 1) ∧ (i = .decode → k ≤ s.latch.sLen + 1) ∧
      (i = .minenc ∨ i = .mindec → k = 1)

/-! ### The transforms -/

/-- R129: ENCODE of a payload has exactly two results, its frame length when the capacity holds it and 0 when not, and
the frame's bytes do not depend on the capacity. -/
def Obligations.EncodeResultIsFrameLength : Prop :=
  ∀ (p : List Byte) (cap : Nat),
    (encodeFn p cap).1 = (if cap ≥ frameLength p then frameLength p else 0) ∧
    (cap ≥ frameLength p → Written.bytes (encodeFn p cap).2 (frameLength p) = frameOf p)

/-- R128: every byte of a frame but the last is non-zero, and the last is 0. -/
def Obligations.FrameHasNoEmbeddedZero : Prop :=
  ∀ p : List Byte, (frameOf p).length = frameLength p ∧
    (∀ k, k < frameLength p - 1 → ∃ b, (frameOf p)[k]? = some b ∧ b ≠ 0x00) ∧
    (frameOf p)[frameLength p - 1]? = some 0x00

/-- R169: decoding the frame of a payload with room for the payload gives the payload back. -/
def Obligations.DecodeOfEncodeIsThePayload : Prop :=
  ∀ (p : List Byte) (cap : Nat), p.length ≤ cap →
    (decodeFn (frameOf p) cap).1 = p.length ∧
    Written.bytes (decodeFn (frameOf p) cap).2 p.length = p

/-- R166: DECODE gives a non-failure result exactly for the buffers of the accepted shape whose capacity checks pass,
and the result is the number of bytes emitted. -/
def Obligations.DecodeAcceptanceCondition : Prop :=
  ∀ (f : List Byte) (cap : Nat),
    (AcceptedShape f ∧ (∀ k, 1 ≤ k → k + 2 ≤ f.length → emittedBefore f k < cap) →
      (decodeFn f cap).1 = emittedBefore f (f.length - 1)) ∧
    (¬ (AcceptedShape f ∧ (∀ k, 1 ≤ k → k + 2 ≤ f.length → emittedBefore f k < cap)) →
      (decodeFn f cap).1 = 0)

/-- R170: with capacity `n - 2` or more, DECODE of an `n`-byte buffer never fails for lack of capacity: any two such
capacities give the same result and, with a result, the same bytes. -/
def Obligations.DecodeCapacitySuffices : Prop :=
  ∀ (f : List Byte) (cap cap' : Nat), minDecodedSize f.length ≤ cap → minDecodedSize f.length ≤ cap' →
    (decodeFn f cap').1 = (decodeFn f cap).1 ∧
    ((decodeFn f cap).1 ≠ 0 → (decodeFn f cap').2 = (decodeFn f cap).2)

/-- R171 (a) and (b): a byte of an accepted buffer between its ends changed to 0 makes DECODE return 0; byte 0 changed
to 0 goes undetected, and the bytes after it are returned as data. -/
def Obligations.CorruptionToZeroDetection : Prop :=
  ∀ (f : List Byte) (cap : Nat), AcceptedShape f →
    (∀ k, 1 ≤ k → k + 2 ≤ f.length → (decodeFn (f.set k 0x00) cap).1 = 0) ∧
    (f.length - 2 ≤ cap → (decodeFn (f.set 0 0x00) cap).1 = f.length - 2 ∧
      Written.bytes (decodeFn (f.set 0 0x00) cap).2 (f.length - 2) = (f.drop 1).take (f.length - 2))

/-- R181: MINENC's value is the largest frame length of any payload of its length, reached by every payload without a
zero byte. Capacity of that size suffices for all, and one byte less fails for those. -/
def Obligations.MinencIsTheWorstCase : Prop :=
  (∀ (p : List Byte) (cap : Nat), minEncodedSize p.length ≤ cap →
    frameLength p ≤ minEncodedSize p.length ∧ 0 < (encodeFn p cap).1) ∧
  (∀ p : List Byte, (∀ b ∈ p, b ≠ 0x00) →
    frameLength p = minEncodedSize p.length ∧ (encodeFn p (minEncodedSize p.length - 1)).1 = 0)

/-- R181's last point with R180's overflow: the largest length whose MINENC fits, for three address widths, and the
result there. Every greater length gives 0. -/
def Obligations.MinencOverflowBoundary : Prop :=
  ∀ (p : Platform) (n : Nat),
    (p.addrW = 8 → (minencResult p n ≠ 0 ↔ n ≤ 0xFD) ∧ minencResult p 0xFD = 0xFF) ∧
    (p.addrW = 16 → (minencResult p n ≠ 0 ↔ n ≤ 0xFEFD) ∧ minencResult p 0xFEFD = 0xFFFF) ∧
    (p.addrW = 32 → (minencResult p n ≠ 0 ↔ n ≤ 0xFEFEFEFD) ∧ minencResult p 0xFEFEFEFD = 0xFFFFFFFF)

/-- R183's idempotent sizing: MINDEC of MINENC is enough for the payload, and what it is. -/
def Obligations.MindecOfMinencIsEnough : Prop :=
  ∀ n : Nat, n ≤ minDecodedSize (minEncodedSize n) ∧
    (n = 0 → minDecodedSize (minEncodedSize n) = 0) ∧
    (1 ≤ n → minDecodedSize (minEncodedSize n) = n + (n - 1) / 254)

/-! ### The host's POLL -/

/-- R81's POLL. One read answers with the register's word. Where the field holds the value the loop is left, and where it
does not the loop is taken again, after the engine's turns the interleaving gives (assumption 3).
A POLL of `STATUS.BUSY == 0` after an accepted command ends (R241, with R116's bound), and its last read shows the
STATUS of a block that is not busy. -/
def Obligations.PollEndsWhenTheFieldMatches : Prop :=
  (∀ (s : State) (f : RegField) (v : Nat) (gaps : List Nat) (rest : List Event) (w : Word),
    s.inputs = .poll f v gaps :: rest → w = readReg (fieldReg f) s →
    (fieldValue s.platform f w = v →
      step s = .next { s.withInputs rest with replies := .reg (fieldReg f) w :: s.replies }) ∧
    (fieldValue s.platform f w ≠ v →
      step s = .next { s with
        replies := .reg (fieldReg f) w :: s.replies,
        inputs := List.replicate (gaps.headD 1) .engine ++ .poll f v gaps.tail :: rest })) ∧
  (∀ (i : Instr) (s t : State), s.inputs = [.poll .busy 0 []] → s.busy = false → exec i s = .next t →
    t.busy = true →
    ∃ k u, Runs k t u ∧ k ≤ 2 * (s.latch.sLen + s.latch.sLen / 254 + 1) + 1 ∧ u.busy = false ∧ u.inputs = [] ∧
      ∃ w : Word, u.replies.head? = some (.reg .status w) ∧ w.toNat % 2 = 0)
end

