-- ==== Sys2Proof/Laws/State.lean ====
section
/-! SUPPORT. The fields after each named update of the state, one lemma a field, so that no later proof unfolds a
record update. -/

namespace Sys2Proof.Machine

open Sys2Proof Config

/-! ### `State.finish` -/

@[simp] theorem State.finish_platform (s : State) (v : Nat) : (s.finish v).platform = s.platform := rfl
@[simp] theorem State.finish_srcAddr (s : State) (v : Nat) : (s.finish v).srcAddr = s.srcAddr := rfl
@[simp] theorem State.finish_srcLen (s : State) (v : Nat) : (s.finish v).srcLen = s.srcLen := rfl
@[simp] theorem State.finish_dstAddr (s : State) (v : Nat) : (s.finish v).dstAddr = s.dstAddr := rfl
@[simp] theorem State.finish_dstCap (s : State) (v : Nat) : (s.finish v).dstCap = s.dstCap := rfl
@[simp] theorem State.finish_result (s : State) (v : Nat) : (s.finish v).result = BitVec.ofNat 32 v := rfl
@[simp] theorem State.finish_busy (s : State) (v : Nat) : (s.finish v).busy = false := rfl
@[simp] theorem State.finish_done (s : State) (v : Nat) : (s.finish v).done = true := rfl
@[simp] theorem State.finish_fault (s : State) (v : Nat) : (s.finish v).fault = s.fault := rfl
@[simp] theorem State.finish_engine (s : State) (v : Nat) : (s.finish v).engine = .idle := rfl
@[simp] theorem State.finish_mem (s : State) (v : Nat) : (s.finish v).mem = s.mem := rfl
@[simp] theorem State.finish_drawn (s : State) (v : Nat) : (s.finish v).drawn = s.drawn := rfl
@[simp] theorem State.finish_draws (s : State) (v : Nat) : (s.finish v).draws = s.draws := rfl
@[simp] theorem State.finish_inputs (s : State) (v : Nat) : (s.finish v).inputs = s.inputs := rfl
@[simp] theorem State.finish_replies (s : State) (v : Nat) : (s.finish v).replies = s.replies := rfl
@[simp] theorem State.finish_trace (s : State) (v : Nat) : (s.finish v).trace = s.trace := rfl

/-! ### `State.raiseFault` -/

@[simp] theorem State.raiseFault_platform (s : State) (code : FaultCode) : (s.raiseFault code).platform = s.platform := rfl
@[simp] theorem State.raiseFault_srcAddr (s : State) (code : FaultCode) : (s.raiseFault code).srcAddr = s.srcAddr := rfl
@[simp] theorem State.raiseFault_srcLen (s : State) (code : FaultCode) : (s.raiseFault code).srcLen = s.srcLen := rfl
@[simp] theorem State.raiseFault_dstAddr (s : State) (code : FaultCode) : (s.raiseFault code).dstAddr = s.dstAddr := rfl
@[simp] theorem State.raiseFault_dstCap (s : State) (code : FaultCode) : (s.raiseFault code).dstCap = s.dstCap := rfl
@[simp] theorem State.raiseFault_result (s : State) (code : FaultCode) : (s.raiseFault code).result = 0 := rfl
@[simp] theorem State.raiseFault_busy (s : State) (code : FaultCode) : (s.raiseFault code).busy = false := rfl
@[simp] theorem State.raiseFault_done (s : State) (code : FaultCode) : (s.raiseFault code).done = false := rfl
@[simp] theorem State.raiseFault_fault (s : State) (code : FaultCode) : (s.raiseFault code).fault = if s.fault = .none then code else s.fault := rfl
@[simp] theorem State.raiseFault_engine (s : State) (code : FaultCode) : (s.raiseFault code).engine = .idle := rfl
@[simp] theorem State.raiseFault_mem (s : State) (code : FaultCode) : (s.raiseFault code).mem = s.mem := rfl
@[simp] theorem State.raiseFault_drawn (s : State) (code : FaultCode) : (s.raiseFault code).drawn = s.drawn := rfl
@[simp] theorem State.raiseFault_draws (s : State) (code : FaultCode) : (s.raiseFault code).draws = s.draws := rfl
@[simp] theorem State.raiseFault_inputs (s : State) (code : FaultCode) : (s.raiseFault code).inputs = s.inputs := rfl
@[simp] theorem State.raiseFault_replies (s : State) (code : FaultCode) : (s.raiseFault code).replies = s.replies := rfl
@[simp] theorem State.raiseFault_trace (s : State) (code : FaultCode) : (s.raiseFault code).trace = s.trace := rfl

/-! ### `State.logAccess` -/

@[simp] theorem State.logAccess_platform (s : State) (kind : AccessKind) (a : Nat) (b : Byte) : (s.logAccess kind a b).platform = s.platform := rfl
@[simp] theorem State.logAccess_srcAddr (s : State) (kind : AccessKind) (a : Nat) (b : Byte) : (s.logAccess kind a b).srcAddr = s.srcAddr := rfl
@[simp] theorem State.logAccess_srcLen (s : State) (kind : AccessKind) (a : Nat) (b : Byte) : (s.logAccess kind a b).srcLen = s.srcLen := rfl
@[simp] theorem State.logAccess_dstAddr (s : State) (kind : AccessKind) (a : Nat) (b : Byte) : (s.logAccess kind a b).dstAddr = s.dstAddr := rfl
@[simp] theorem State.logAccess_dstCap (s : State) (kind : AccessKind) (a : Nat) (b : Byte) : (s.logAccess kind a b).dstCap = s.dstCap := rfl
@[simp] theorem State.logAccess_result (s : State) (kind : AccessKind) (a : Nat) (b : Byte) : (s.logAccess kind a b).result = s.result := rfl
@[simp] theorem State.logAccess_busy (s : State) (kind : AccessKind) (a : Nat) (b : Byte) : (s.logAccess kind a b).busy = s.busy := rfl
@[simp] theorem State.logAccess_done (s : State) (kind : AccessKind) (a : Nat) (b : Byte) : (s.logAccess kind a b).done = s.done := rfl
@[simp] theorem State.logAccess_fault (s : State) (kind : AccessKind) (a : Nat) (b : Byte) : (s.logAccess kind a b).fault = s.fault := rfl
@[simp] theorem State.logAccess_engine (s : State) (kind : AccessKind) (a : Nat) (b : Byte) : (s.logAccess kind a b).engine = s.engine := rfl
@[simp] theorem State.logAccess_mem (s : State) (kind : AccessKind) (a : Nat) (b : Byte) : (s.logAccess kind a b).mem = s.mem := rfl
@[simp] theorem State.logAccess_drawn (s : State) (kind : AccessKind) (a : Nat) (b : Byte) : (s.logAccess kind a b).drawn = s.drawn := rfl
@[simp] theorem State.logAccess_draws (s : State) (kind : AccessKind) (a : Nat) (b : Byte) : (s.logAccess kind a b).draws = s.draws := rfl
@[simp] theorem State.logAccess_inputs (s : State) (kind : AccessKind) (a : Nat) (b : Byte) : (s.logAccess kind a b).inputs = s.inputs := rfl
@[simp] theorem State.logAccess_replies (s : State) (kind : AccessKind) (a : Nat) (b : Byte) : (s.logAccess kind a b).replies = s.replies := rfl
@[simp] theorem State.logAccess_trace (s : State) (kind : AccessKind) (a : Nat) (b : Byte) : (s.logAccess kind a b).trace = ⟨kind, a, b⟩ :: s.trace := rfl

/-! ### `State.setEngine` -/

@[simp] theorem State.setEngine_platform (s : State) (e : Engine) : (s.setEngine e).platform = s.platform := rfl
@[simp] theorem State.setEngine_srcAddr (s : State) (e : Engine) : (s.setEngine e).srcAddr = s.srcAddr := rfl
@[simp] theorem State.setEngine_srcLen (s : State) (e : Engine) : (s.setEngine e).srcLen = s.srcLen := rfl
@[simp] theorem State.setEngine_dstAddr (s : State) (e : Engine) : (s.setEngine e).dstAddr = s.dstAddr := rfl
@[simp] theorem State.setEngine_dstCap (s : State) (e : Engine) : (s.setEngine e).dstCap = s.dstCap := rfl
@[simp] theorem State.setEngine_result (s : State) (e : Engine) : (s.setEngine e).result = s.result := rfl
@[simp] theorem State.setEngine_busy (s : State) (e : Engine) : (s.setEngine e).busy = s.busy := rfl
@[simp] theorem State.setEngine_done (s : State) (e : Engine) : (s.setEngine e).done = s.done := rfl
@[simp] theorem State.setEngine_fault (s : State) (e : Engine) : (s.setEngine e).fault = s.fault := rfl
@[simp] theorem State.setEngine_engine (s : State) (e : Engine) : (s.setEngine e).engine = e := rfl
@[simp] theorem State.setEngine_mem (s : State) (e : Engine) : (s.setEngine e).mem = s.mem := rfl
@[simp] theorem State.setEngine_drawn (s : State) (e : Engine) : (s.setEngine e).drawn = s.drawn := rfl
@[simp] theorem State.setEngine_draws (s : State) (e : Engine) : (s.setEngine e).draws = s.draws := rfl
@[simp] theorem State.setEngine_inputs (s : State) (e : Engine) : (s.setEngine e).inputs = s.inputs := rfl
@[simp] theorem State.setEngine_replies (s : State) (e : Engine) : (s.setEngine e).replies = s.replies := rfl
@[simp] theorem State.setEngine_trace (s : State) (e : Engine) : (s.setEngine e).trace = s.trace := rfl

/-! ### `State.setByte` -/

@[simp] theorem State.setByte_platform (s : State) (a : Nat) (b : Byte) : (s.setByte a b).platform = s.platform := rfl
@[simp] theorem State.setByte_srcAddr (s : State) (a : Nat) (b : Byte) : (s.setByte a b).srcAddr = s.srcAddr := rfl
@[simp] theorem State.setByte_srcLen (s : State) (a : Nat) (b : Byte) : (s.setByte a b).srcLen = s.srcLen := rfl
@[simp] theorem State.setByte_dstAddr (s : State) (a : Nat) (b : Byte) : (s.setByte a b).dstAddr = s.dstAddr := rfl
@[simp] theorem State.setByte_dstCap (s : State) (a : Nat) (b : Byte) : (s.setByte a b).dstCap = s.dstCap := rfl
@[simp] theorem State.setByte_result (s : State) (a : Nat) (b : Byte) : (s.setByte a b).result = s.result := rfl
@[simp] theorem State.setByte_busy (s : State) (a : Nat) (b : Byte) : (s.setByte a b).busy = s.busy := rfl
@[simp] theorem State.setByte_done (s : State) (a : Nat) (b : Byte) : (s.setByte a b).done = s.done := rfl
@[simp] theorem State.setByte_fault (s : State) (a : Nat) (b : Byte) : (s.setByte a b).fault = s.fault := rfl
@[simp] theorem State.setByte_engine (s : State) (a : Nat) (b : Byte) : (s.setByte a b).engine = s.engine := rfl
@[simp] theorem State.setByte_mem (s : State) (a : Nat) (b : Byte) : (s.setByte a b).mem = s.mem.set a b := rfl
@[simp] theorem State.setByte_drawn (s : State) (a : Nat) (b : Byte) : (s.setByte a b).drawn = Drawn.carve s.drawn a 1 := rfl
@[simp] theorem State.setByte_draws (s : State) (a : Nat) (b : Byte) : (s.setByte a b).draws = s.draws := rfl
@[simp] theorem State.setByte_inputs (s : State) (a : Nat) (b : Byte) : (s.setByte a b).inputs = s.inputs := rfl
@[simp] theorem State.setByte_replies (s : State) (a : Nat) (b : Byte) : (s.setByte a b).replies = s.replies := rfl
@[simp] theorem State.setByte_trace (s : State) (a : Nat) (b : Byte) : (s.setByte a b).trace = s.trace := rfl

/-! ### `State.clearResult` -/

@[simp] theorem State.clearResult_platform (s : State) : (s.clearResult).platform = s.platform := rfl
@[simp] theorem State.clearResult_srcAddr (s : State) : (s.clearResult).srcAddr = s.srcAddr := rfl
@[simp] theorem State.clearResult_srcLen (s : State) : (s.clearResult).srcLen = s.srcLen := rfl
@[simp] theorem State.clearResult_dstAddr (s : State) : (s.clearResult).dstAddr = s.dstAddr := rfl
@[simp] theorem State.clearResult_dstCap (s : State) : (s.clearResult).dstCap = s.dstCap := rfl
@[simp] theorem State.clearResult_result (s : State) : (s.clearResult).result = 0 := rfl
@[simp] theorem State.clearResult_busy (s : State) : (s.clearResult).busy = s.busy := rfl
@[simp] theorem State.clearResult_done (s : State) : (s.clearResult).done = false := rfl
@[simp] theorem State.clearResult_fault (s : State) : (s.clearResult).fault = s.fault := rfl
@[simp] theorem State.clearResult_engine (s : State) : (s.clearResult).engine = s.engine := rfl
@[simp] theorem State.clearResult_mem (s : State) : (s.clearResult).mem = s.mem := rfl
@[simp] theorem State.clearResult_drawn (s : State) : (s.clearResult).drawn = s.drawn := rfl
@[simp] theorem State.clearResult_draws (s : State) : (s.clearResult).draws = s.draws := rfl
@[simp] theorem State.clearResult_inputs (s : State) : (s.clearResult).inputs = s.inputs := rfl
@[simp] theorem State.clearResult_replies (s : State) : (s.clearResult).replies = s.replies := rfl
@[simp] theorem State.clearResult_trace (s : State) : (s.clearResult).trace = s.trace := rfl

/-! ### `State.start` -/

@[simp] theorem State.start_platform (s : State) (e : Engine) : (s.start e).platform = s.platform := rfl
@[simp] theorem State.start_srcAddr (s : State) (e : Engine) : (s.start e).srcAddr = s.srcAddr := rfl
@[simp] theorem State.start_srcLen (s : State) (e : Engine) : (s.start e).srcLen = s.srcLen := rfl
@[simp] theorem State.start_dstAddr (s : State) (e : Engine) : (s.start e).dstAddr = s.dstAddr := rfl
@[simp] theorem State.start_dstCap (s : State) (e : Engine) : (s.start e).dstCap = s.dstCap := rfl
@[simp] theorem State.start_result (s : State) (e : Engine) : (s.start e).result = s.result := rfl
@[simp] theorem State.start_busy (s : State) (e : Engine) : (s.start e).busy = true := rfl
@[simp] theorem State.start_done (s : State) (e : Engine) : (s.start e).done = s.done := rfl
@[simp] theorem State.start_fault (s : State) (e : Engine) : (s.start e).fault = s.fault := rfl
@[simp] theorem State.start_engine (s : State) (e : Engine) : (s.start e).engine = e := rfl
@[simp] theorem State.start_mem (s : State) (e : Engine) : (s.start e).mem = s.mem := rfl
@[simp] theorem State.start_drawn (s : State) (e : Engine) : (s.start e).drawn = s.drawn := rfl
@[simp] theorem State.start_draws (s : State) (e : Engine) : (s.start e).draws = s.draws := rfl
@[simp] theorem State.start_inputs (s : State) (e : Engine) : (s.start e).inputs = s.inputs := rfl
@[simp] theorem State.start_replies (s : State) (e : Engine) : (s.start e).replies = s.replies := rfl
@[simp] theorem State.start_trace (s : State) (e : Engine) : (s.start e).trace = s.trace := rfl

/-! ### `State.reply` -/

@[simp] theorem State.reply_platform (s : State) (x : Reply) : (s.reply x).platform = s.platform := rfl
@[simp] theorem State.reply_srcAddr (s : State) (x : Reply) : (s.reply x).srcAddr = s.srcAddr := rfl
@[simp] theorem State.reply_srcLen (s : State) (x : Reply) : (s.reply x).srcLen = s.srcLen := rfl
@[simp] theorem State.reply_dstAddr (s : State) (x : Reply) : (s.reply x).dstAddr = s.dstAddr := rfl
@[simp] theorem State.reply_dstCap (s : State) (x : Reply) : (s.reply x).dstCap = s.dstCap := rfl
@[simp] theorem State.reply_result (s : State) (x : Reply) : (s.reply x).result = s.result := rfl
@[simp] theorem State.reply_busy (s : State) (x : Reply) : (s.reply x).busy = s.busy := rfl
@[simp] theorem State.reply_done (s : State) (x : Reply) : (s.reply x).done = s.done := rfl
@[simp] theorem State.reply_fault (s : State) (x : Reply) : (s.reply x).fault = s.fault := rfl
@[simp] theorem State.reply_engine (s : State) (x : Reply) : (s.reply x).engine = s.engine := rfl
@[simp] theorem State.reply_mem (s : State) (x : Reply) : (s.reply x).mem = s.mem := rfl
@[simp] theorem State.reply_drawn (s : State) (x : Reply) : (s.reply x).drawn = s.drawn := rfl
@[simp] theorem State.reply_draws (s : State) (x : Reply) : (s.reply x).draws = s.draws := rfl
@[simp] theorem State.reply_inputs (s : State) (x : Reply) : (s.reply x).inputs = s.inputs := rfl
@[simp] theorem State.reply_replies (s : State) (x : Reply) : (s.reply x).replies = x :: s.replies := rfl
@[simp] theorem State.reply_trace (s : State) (x : Reply) : (s.reply x).trace = s.trace := rfl

/-! ### `State.resetRegs` -/

@[simp] theorem State.resetRegs_platform (s : State) : (s.resetRegs).platform = s.platform := rfl
@[simp] theorem State.resetRegs_srcAddr (s : State) : (s.resetRegs).srcAddr = 0 := rfl
@[simp] theorem State.resetRegs_srcLen (s : State) : (s.resetRegs).srcLen = 0 := rfl
@[simp] theorem State.resetRegs_dstAddr (s : State) : (s.resetRegs).dstAddr = 0 := rfl
@[simp] theorem State.resetRegs_dstCap (s : State) : (s.resetRegs).dstCap = 0 := rfl
@[simp] theorem State.resetRegs_result (s : State) : (s.resetRegs).result = 0 := rfl
@[simp] theorem State.resetRegs_busy (s : State) : (s.resetRegs).busy = false := rfl
@[simp] theorem State.resetRegs_done (s : State) : (s.resetRegs).done = false := rfl
@[simp] theorem State.resetRegs_fault (s : State) : (s.resetRegs).fault = .none := rfl
@[simp] theorem State.resetRegs_engine (s : State) : (s.resetRegs).engine = .idle := rfl
@[simp] theorem State.resetRegs_mem (s : State) : (s.resetRegs).mem = s.mem := rfl
@[simp] theorem State.resetRegs_drawn (s : State) : (s.resetRegs).drawn = s.drawn := rfl
@[simp] theorem State.resetRegs_draws (s : State) : (s.resetRegs).draws = s.draws := rfl
@[simp] theorem State.resetRegs_inputs (s : State) : (s.resetRegs).inputs = s.inputs := rfl
@[simp] theorem State.resetRegs_replies (s : State) : (s.resetRegs).replies = s.replies := rfl
@[simp] theorem State.resetRegs_trace (s : State) : (s.resetRegs).trace = s.trace := rfl

/-! ### `State.withInputs` -/

@[simp] theorem State.withInputs_platform (s : State) (x : List Event) : (s.withInputs x).platform = s.platform := rfl
@[simp] theorem State.withInputs_srcAddr (s : State) (x : List Event) : (s.withInputs x).srcAddr = s.srcAddr := rfl
@[simp] theorem State.withInputs_srcLen (s : State) (x : List Event) : (s.withInputs x).srcLen = s.srcLen := rfl
@[simp] theorem State.withInputs_dstAddr (s : State) (x : List Event) : (s.withInputs x).dstAddr = s.dstAddr := rfl
@[simp] theorem State.withInputs_dstCap (s : State) (x : List Event) : (s.withInputs x).dstCap = s.dstCap := rfl
@[simp] theorem State.withInputs_result (s : State) (x : List Event) : (s.withInputs x).result = s.result := rfl
@[simp] theorem State.withInputs_busy (s : State) (x : List Event) : (s.withInputs x).busy = s.busy := rfl
@[simp] theorem State.withInputs_done (s : State) (x : List Event) : (s.withInputs x).done = s.done := rfl
@[simp] theorem State.withInputs_fault (s : State) (x : List Event) : (s.withInputs x).fault = s.fault := rfl
@[simp] theorem State.withInputs_engine (s : State) (x : List Event) : (s.withInputs x).engine = s.engine := rfl
@[simp] theorem State.withInputs_mem (s : State) (x : List Event) : (s.withInputs x).mem = s.mem := rfl
@[simp] theorem State.withInputs_drawn (s : State) (x : List Event) : (s.withInputs x).drawn = s.drawn := rfl
@[simp] theorem State.withInputs_draws (s : State) (x : List Event) : (s.withInputs x).draws = s.draws := rfl
@[simp] theorem State.withInputs_inputs (s : State) (x : List Event) : (s.withInputs x).inputs = x := rfl
@[simp] theorem State.withInputs_replies (s : State) (x : List Event) : (s.withInputs x).replies = s.replies := rfl
@[simp] theorem State.withInputs_trace (s : State) (x : List Event) : (s.withInputs x).trace = s.trace := rfl

/-! ### `State.drawBytes`: everything but the bytes it draws -/

@[simp] theorem State.drawBytes_platform (s : State) (base size : Nat) : (s.drawBytes base size).platform = s.platform := by
  unfold State.drawBytes; split <;> rfl
@[simp] theorem State.drawBytes_srcAddr (s : State) (base size : Nat) : (s.drawBytes base size).srcAddr = s.srcAddr := by
  unfold State.drawBytes; split <;> rfl
@[simp] theorem State.drawBytes_srcLen (s : State) (base size : Nat) : (s.drawBytes base size).srcLen = s.srcLen := by
  unfold State.drawBytes; split <;> rfl
@[simp] theorem State.drawBytes_dstAddr (s : State) (base size : Nat) : (s.drawBytes base size).dstAddr = s.dstAddr := by
  unfold State.drawBytes; split <;> rfl
@[simp] theorem State.drawBytes_dstCap (s : State) (base size : Nat) : (s.drawBytes base size).dstCap = s.dstCap := by
  unfold State.drawBytes; split <;> rfl
@[simp] theorem State.drawBytes_result (s : State) (base size : Nat) : (s.drawBytes base size).result = s.result := by
  unfold State.drawBytes; split <;> rfl
@[simp] theorem State.drawBytes_busy (s : State) (base size : Nat) : (s.drawBytes base size).busy = s.busy := by
  unfold State.drawBytes; split <;> rfl
@[simp] theorem State.drawBytes_done (s : State) (base size : Nat) : (s.drawBytes base size).done = s.done := by
  unfold State.drawBytes; split <;> rfl
@[simp] theorem State.drawBytes_fault (s : State) (base size : Nat) : (s.drawBytes base size).fault = s.fault := by
  unfold State.drawBytes; split <;> rfl
@[simp] theorem State.drawBytes_engine (s : State) (base size : Nat) : (s.drawBytes base size).engine = s.engine := by
  unfold State.drawBytes; split <;> rfl
@[simp] theorem State.drawBytes_inputs (s : State) (base size : Nat) : (s.drawBytes base size).inputs = s.inputs := by
  unfold State.drawBytes; split <;> rfl
@[simp] theorem State.drawBytes_replies (s : State) (base size : Nat) : (s.drawBytes base size).replies = s.replies := by
  unfold State.drawBytes; split <;> rfl
@[simp] theorem State.drawBytes_trace (s : State) (base size : Nat) : (s.drawBytes base size).trace = s.trace := by
  unfold State.drawBytes; split <;> rfl
@[simp] theorem State.drawBytes_zero (s : State) (base : Nat) : s.drawBytes base 0 = s := rfl
theorem State.drawBytes_draws (s : State) (base size : Nat) :
    (s.drawBytes base size).draws = if size = 0 then s.draws else s.draws + 1 := by
  unfold State.drawBytes; split <;> rfl

/-! ### `State.clearMemory` -/

@[simp] theorem State.clearMemory_platform (s : State) : s.clearMemory.platform = s.platform := rfl
@[simp] theorem State.clearMemory_srcAddr (s : State) : s.clearMemory.srcAddr = s.srcAddr := rfl
@[simp] theorem State.clearMemory_srcLen (s : State) : s.clearMemory.srcLen = s.srcLen := rfl
@[simp] theorem State.clearMemory_dstAddr (s : State) : s.clearMemory.dstAddr = s.dstAddr := rfl
@[simp] theorem State.clearMemory_dstCap (s : State) : s.clearMemory.dstCap = s.dstCap := rfl
@[simp] theorem State.clearMemory_result (s : State) : s.clearMemory.result = s.result := rfl
@[simp] theorem State.clearMemory_busy (s : State) : s.clearMemory.busy = s.busy := rfl
@[simp] theorem State.clearMemory_done (s : State) : s.clearMemory.done = s.done := rfl
@[simp] theorem State.clearMemory_fault (s : State) : s.clearMemory.fault = s.fault := rfl
@[simp] theorem State.clearMemory_engine (s : State) : s.clearMemory.engine = s.engine := rfl
@[simp] theorem State.clearMemory_mem (s : State) : s.clearMemory.mem = [] := rfl
@[simp] theorem State.clearMemory_drawn (s : State) : s.clearMemory.drawn = [] := rfl
@[simp] theorem State.clearMemory_draws (s : State) : s.clearMemory.draws = s.draws := rfl
@[simp] theorem State.clearMemory_inputs (s : State) : s.clearMemory.inputs = s.inputs := rfl
@[simp] theorem State.clearMemory_replies (s : State) : s.clearMemory.replies = s.replies := rfl
@[simp] theorem State.clearMemory_trace (s : State) : s.clearMemory.trace = s.trace := rfl

/-! ### `hostPollRead` -/

@[simp] theorem hostPollRead_platform (f : RegField) (v : Nat) (gaps : List Nat) (s : State) : (hostPollRead f v gaps s).platform = s.platform := rfl
@[simp] theorem hostPollRead_srcAddr (f : RegField) (v : Nat) (gaps : List Nat) (s : State) : (hostPollRead f v gaps s).srcAddr = s.srcAddr := rfl
@[simp] theorem hostPollRead_srcLen (f : RegField) (v : Nat) (gaps : List Nat) (s : State) : (hostPollRead f v gaps s).srcLen = s.srcLen := rfl
@[simp] theorem hostPollRead_dstAddr (f : RegField) (v : Nat) (gaps : List Nat) (s : State) : (hostPollRead f v gaps s).dstAddr = s.dstAddr := rfl
@[simp] theorem hostPollRead_dstCap (f : RegField) (v : Nat) (gaps : List Nat) (s : State) : (hostPollRead f v gaps s).dstCap = s.dstCap := rfl
@[simp] theorem hostPollRead_result (f : RegField) (v : Nat) (gaps : List Nat) (s : State) : (hostPollRead f v gaps s).result = s.result := rfl
@[simp] theorem hostPollRead_busy (f : RegField) (v : Nat) (gaps : List Nat) (s : State) : (hostPollRead f v gaps s).busy = s.busy := rfl
@[simp] theorem hostPollRead_done (f : RegField) (v : Nat) (gaps : List Nat) (s : State) : (hostPollRead f v gaps s).done = s.done := rfl
@[simp] theorem hostPollRead_fault (f : RegField) (v : Nat) (gaps : List Nat) (s : State) : (hostPollRead f v gaps s).fault = s.fault := rfl
@[simp] theorem hostPollRead_engine (f : RegField) (v : Nat) (gaps : List Nat) (s : State) : (hostPollRead f v gaps s).engine = s.engine := rfl
@[simp] theorem hostPollRead_mem (f : RegField) (v : Nat) (gaps : List Nat) (s : State) : (hostPollRead f v gaps s).mem = s.mem := rfl
@[simp] theorem hostPollRead_drawn (f : RegField) (v : Nat) (gaps : List Nat) (s : State) : (hostPollRead f v gaps s).drawn = s.drawn := rfl
@[simp] theorem hostPollRead_draws (f : RegField) (v : Nat) (gaps : List Nat) (s : State) : (hostPollRead f v gaps s).draws = s.draws := rfl
@[simp] theorem hostPollRead_inputs (f : RegField) (v : Nat) (gaps : List Nat) (s : State) :
    (hostPollRead f v gaps s).inputs =
      afterPollRead s.platform f v gaps (readReg (fieldReg f) s) ++ s.inputs := rfl
@[simp] theorem hostPollRead_replies (f : RegField) (v : Nat) (gaps : List Nat) (s : State) :
    (hostPollRead f v gaps s).replies = .reg (fieldReg f) (readReg (fieldReg f) s) :: s.replies := rfl
@[simp] theorem hostPollRead_trace (f : RegField) (v : Nat) (gaps : List Nat) (s : State) : (hostPollRead f v gaps s).trace = s.trace := rfl

/-! ### `State.finishBuffers` and `State.busError`: everything but the bytes they draw -/

@[simp] theorem State.finishBuffers_platform (s : State) (l : Latched) (v : Nat) : (s.finishBuffers l v).platform = s.platform := by
  unfold State.finishBuffers; split <;> simp_all
@[simp] theorem State.finishBuffers_srcAddr (s : State) (l : Latched) (v : Nat) : (s.finishBuffers l v).srcAddr = s.srcAddr := by
  unfold State.finishBuffers; split <;> simp_all
@[simp] theorem State.finishBuffers_srcLen (s : State) (l : Latched) (v : Nat) : (s.finishBuffers l v).srcLen = s.srcLen := by
  unfold State.finishBuffers; split <;> simp_all
@[simp] theorem State.finishBuffers_dstAddr (s : State) (l : Latched) (v : Nat) : (s.finishBuffers l v).dstAddr = s.dstAddr := by
  unfold State.finishBuffers; split <;> simp_all
@[simp] theorem State.finishBuffers_dstCap (s : State) (l : Latched) (v : Nat) : (s.finishBuffers l v).dstCap = s.dstCap := by
  unfold State.finishBuffers; split <;> simp_all
@[simp] theorem State.finishBuffers_result (s : State) (l : Latched) (v : Nat) : (s.finishBuffers l v).result = BitVec.ofNat 32 v := by
  unfold State.finishBuffers; split <;> simp_all
@[simp] theorem State.finishBuffers_busy (s : State) (l : Latched) (v : Nat) : (s.finishBuffers l v).busy = false := by
  unfold State.finishBuffers; split <;> simp_all
@[simp] theorem State.finishBuffers_done (s : State) (l : Latched) (v : Nat) : (s.finishBuffers l v).done = true := by
  unfold State.finishBuffers; split <;> simp_all
@[simp] theorem State.finishBuffers_fault (s : State) (l : Latched) (v : Nat) : (s.finishBuffers l v).fault = s.fault := by
  unfold State.finishBuffers; split <;> simp_all
@[simp] theorem State.finishBuffers_engine (s : State) (l : Latched) (v : Nat) : (s.finishBuffers l v).engine = .idle := by
  unfold State.finishBuffers; split <;> simp_all
@[simp] theorem State.finishBuffers_inputs (s : State) (l : Latched) (v : Nat) : (s.finishBuffers l v).inputs = s.inputs := by
  unfold State.finishBuffers; split <;> simp_all
@[simp] theorem State.finishBuffers_replies (s : State) (l : Latched) (v : Nat) : (s.finishBuffers l v).replies = s.replies := by
  unfold State.finishBuffers; split <;> simp_all
@[simp] theorem State.finishBuffers_trace (s : State) (l : Latched) (v : Nat) : (s.finishBuffers l v).trace = s.trace := by
  unfold State.finishBuffers; split <;> simp_all
@[simp] theorem State.busError_platform (s : State) (l : Latched) : (s.busError l).platform = s.platform := by
  simp [State.busError]
@[simp] theorem State.busError_srcAddr (s : State) (l : Latched) : (s.busError l).srcAddr = s.srcAddr := by
  simp [State.busError]
@[simp] theorem State.busError_srcLen (s : State) (l : Latched) : (s.busError l).srcLen = s.srcLen := by
  simp [State.busError]
@[simp] theorem State.busError_dstAddr (s : State) (l : Latched) : (s.busError l).dstAddr = s.dstAddr := by
  simp [State.busError]
@[simp] theorem State.busError_dstCap (s : State) (l : Latched) : (s.busError l).dstCap = s.dstCap := by
  simp [State.busError]
@[simp] theorem State.busError_result (s : State) (l : Latched) : (s.busError l).result = 0 := by
  simp [State.busError]
@[simp] theorem State.busError_busy (s : State) (l : Latched) : (s.busError l).busy = false := by
  simp [State.busError]
@[simp] theorem State.busError_done (s : State) (l : Latched) : (s.busError l).done = false := by
  simp [State.busError]
@[simp] theorem State.busError_fault (s : State) (l : Latched) : (s.busError l).fault = if s.fault = .none then .busError else s.fault := by
  simp [State.busError]
@[simp] theorem State.busError_engine (s : State) (l : Latched) : (s.busError l).engine = .idle := by
  simp [State.busError]
@[simp] theorem State.busError_inputs (s : State) (l : Latched) : (s.busError l).inputs = s.inputs := by
  simp [State.busError]
@[simp] theorem State.busError_replies (s : State) (l : Latched) : (s.busError l).replies = s.replies := by
  simp [State.busError]
@[simp] theorem State.busError_trace (s : State) (l : Latched) : (s.busError l).trace = s.trace := by
  simp [State.busError]

end Sys2Proof.Machine
end

