-- ==== Sys2Proof/Laws/Memory.lean ====
section
/-! SUPPORT. The laws of data memory: what a read gives after a write or a draw, and that every operation keeps the
canonical form. -/

namespace Sys2Proof.Machine

open Sys2Proof Config

@[simp] theorem inRange_iff (base size a : Nat) : inRange base size a = true ↔ base ≤ a ∧ a < base + size := by
  simp [inRange]

/-! ### Cells: what a read gives -/

theorem Memory.get_put (m : Memory) (a x : Nat) (b : Byte) :
    Memory.get (Memory.put m a b) x = if a = x then b else Memory.get m x := by
  induction m with
  | nil => rfl
  | cons cell m ih =>
    obtain ⟨k, c⟩ := cell
    unfold Memory.put
    split
    · rfl
    split
    · subst a; simp only [Memory.get]; split <;> rfl
    · simp only [Memory.get, ih]
      split_ifs <;> first | rfl | omega

theorem Memory.get_clear (m : Memory) (base size x : Nat) :
    Memory.get (Memory.clear m base size) x =
      if base ≤ x ∧ x < base + size then unlistedByte else Memory.get m x := by
  induction m with
  | nil => simp [Memory.clear, Memory.get]
  | cons cell m ih =>
    obtain ⟨k, c⟩ := cell
    unfold Memory.clear at ih ⊢
    rw [List.filter_cons]
    by_cases hk : inRange base size k = true
    · have := (inRange_iff base size k).1 hk
      simp only [hk, Bool.not_true, Bool.false_eq_true, if_false, ih, Memory.get]
      split_ifs <;> first | rfl | omega
    · have := mt (inRange_iff base size k).2 hk
      simp only [hk, Bool.not_false, if_true, Memory.get, ih]
      split_ifs <;> first | rfl | (subst_vars; contradiction)

theorem Memory.get_set (m : Memory) (a x : Nat) (b : Byte) :
    Memory.get (Memory.set m a b) x = if a = x then b else Memory.get m x := by
  unfold Memory.set
  split
  · subst b; rw [Memory.get_clear]; split_ifs <;> first | rfl | omega
  · exact Memory.get_put m a x b

/-! ### Cells: the canonical form -/

theorem Memory.wfFrom_cons (lo a : Nat) (b : Byte) (m : Memory) :
    Memory.wfFrom lo ((a, b) :: m) = true ↔ lo ≤ a ∧ b ≠ unlistedByte ∧ Memory.wfFrom (a + 1) m = true := by
  simp [Memory.wfFrom, and_assoc]

theorem Memory.wfFrom_mono {lo lo' : Nat} (m : Memory) (h : lo' ≤ lo) (hm : Memory.wfFrom lo m = true) :
    Memory.wfFrom lo' m = true := by
  cases m with
  | nil => rfl
  | cons cell m =>
    obtain ⟨a, b⟩ := cell
    rw [Memory.wfFrom_cons] at hm ⊢
    exact ⟨by omega, hm.2⟩

theorem Memory.wfFrom_clear (m : Memory) (lo base size : Nat) (hm : Memory.wfFrom lo m = true) :
    Memory.wfFrom lo (Memory.clear m base size) = true := by
  induction m generalizing lo with
  | nil => rfl
  | cons cell m ih =>
    obtain ⟨a, b⟩ := cell
    rw [Memory.wfFrom_cons] at hm
    unfold Memory.clear at ih ⊢
    rw [List.filter_cons]
    split
    · exact (Memory.wfFrom_cons _ _ _ _).2 ⟨hm.1, hm.2.1, ih _ hm.2.2⟩
    · exact Memory.wfFrom_mono _ (by omega) (ih _ hm.2.2)

theorem Memory.wfFrom_put (m : Memory) (lo a : Nat) (b : Byte) (hlo : lo ≤ a) (hb : b ≠ unlistedByte)
    (hm : Memory.wfFrom lo m = true) : Memory.wfFrom lo (Memory.put m a b) = true := by
  induction m generalizing lo with
  | nil => exact (Memory.wfFrom_cons _ _ _ _).2 ⟨hlo, hb, rfl⟩
  | cons cell m ih =>
    obtain ⟨k, c⟩ := cell
    rw [Memory.wfFrom_cons] at hm
    unfold Memory.put
    split
    · exact (Memory.wfFrom_cons _ _ _ _).2 ⟨hlo, hb, (Memory.wfFrom_cons _ _ _ _).2 ⟨by omega, hm.2⟩⟩
    split
    · subst a; exact (Memory.wfFrom_cons _ _ _ _).2 ⟨hlo, hb, hm.2.2⟩
    · exact (Memory.wfFrom_cons _ _ _ _).2 ⟨hm.1, hm.2.1, ih _ (by omega) hm.2.2⟩

/-- A write keeps the canonical form of the cells. -/
theorem Memory.wf_set (m : Memory) (a : Nat) (b : Byte) (hm : Memory.wf m = true) :
    Memory.wf (Memory.set m a b) = true := by
  unfold Memory.wf Memory.set at *
  split
  · exact Memory.wfFrom_clear m 0 a 1 hm
  · exact Memory.wfFrom_put m 0 a b (by omega) ‹_› hm

/-- Clearing a range keeps the canonical form of the cells. -/
theorem Memory.wf_clear (m : Memory) (base size : Nat) (hm : Memory.wf m = true) :
    Memory.wf (Memory.clear m base size) = true := Memory.wfFrom_clear m 0 base size hm

theorem Memory.mem_put {cell : Host.Cell} {m : Memory} {a : Nat} {b : Byte} (h : cell ∈ Memory.put m a b) :
    cell = (a, b) ∨ cell ∈ m := by
  induction m with
  | nil => exact .inl (by simpa [Memory.put] using h)
  | cons c m ih =>
    obtain ⟨k, d⟩ := c
    unfold Memory.put at h
    split at h
    · simpa using h
    split at h
    · simp only [List.mem_cons] at h ⊢; tauto
    · simp only [List.mem_cons] at h ⊢
      rcases h with h | h
      · tauto
      · rcases ih h with h | h <;> tauto

theorem Memory.mem_clear {cell : Host.Cell} {m : Memory} {base size : Nat} :
    cell ∈ Memory.clear m base size ↔ cell ∈ m ∧ ¬ (base ≤ cell.1 ∧ cell.1 < base + size) := by
  simp only [Memory.clear, List.mem_filter, Bool.not_eq_eq_eq_not, Bool.not_true, ← inRange_iff,
    Bool.not_eq_true]

/-- A cell after a write is the written one or an earlier one. -/
theorem Memory.mem_set {cell : Host.Cell} {m : Memory} {a : Nat} {b : Byte} (h : cell ∈ Memory.set m a b) :
    cell.1 = a ∨ cell ∈ m := by
  unfold Memory.set at h
  split at h
  · exact .inr (Memory.mem_clear.1 h).1
  · rcases Memory.mem_put h with h | h
    · exact .inl (by rw [h])
    · exact .inr h

/-! ### Drawn ranges: what is found -/

theorem Drawn.find_append (ds es : List Drawn) (a : Nat) :
    Drawn.find (ds ++ es) a = (Drawn.find ds a).or (Drawn.find es a) := by
  induction ds with
  | nil => rfl
  | cons d ds ih => simp only [List.cons_append, Drawn.find]; split <;> simp [ih]

theorem Drawn.find_without (d : Drawn) (base size a : Nat) :
    Drawn.find (Drawn.without base size d) a =
      if base ≤ a ∧ a < base + size then none else Drawn.find [d] a := by
  unfold Drawn.without
  rw [Drawn.find_append]
  simp only [Drawn.find, apply_ite (fun l => Drawn.find l a), inRange_iff]
  split_ifs <;> first | rfl | omega

theorem Drawn.find_carve (ds : List Drawn) (base size a : Nat) :
    Drawn.find (Drawn.carve ds base size) a =
      if base ≤ a ∧ a < base + size then none else Drawn.find ds a := by
  induction ds with
  | nil => simp [Drawn.carve, Drawn.find]
  | cons d ds ih =>
    unfold Drawn.carve at ih ⊢
    rw [List.flatMap_cons, Drawn.find_append, Drawn.find_without, ih]
    split_ifs
    · rfl
    · simp only [Drawn.find]; split <;> rfl

theorem Drawn.find_insert_of_mem (x : Drawn) (ds : List Drawn) (a : Nat) (h : Drawn.find ds a = none)
    (hx : x.base ≤ a ∧ a < x.base + x.size) : Drawn.find (Drawn.insert x ds) a = some x.draw := by
  induction ds with
  | nil => simp [Drawn.insert, Drawn.find, (inRange_iff _ _ _).2 hx]
  | cons d ds ih =>
    unfold Drawn.insert
    split
    · simp [Drawn.find, (inRange_iff _ _ _).2 hx]
    · simp only [Drawn.find] at h ⊢
      split at h
      · cases h
      · simp [*]

theorem Drawn.find_insert_of_not_mem (x : Drawn) (ds : List Drawn) (a : Nat)
    (hx : ¬ (x.base ≤ a ∧ a < x.base + x.size)) : Drawn.find (Drawn.insert x ds) a = Drawn.find ds a := by
  have hx' : inRange x.base x.size a = false := by
    rw [← Bool.not_eq_true]; exact mt (inRange_iff _ _ _).1 hx
  induction ds with
  | nil => simp [Drawn.insert, Drawn.find, hx']
  | cons d ds ih =>
    unfold Drawn.insert
    split
    · simp [Drawn.find, hx']
    · simp only [Drawn.find, ih]

/-! ### Drawn ranges: the canonical form -/

theorem Drawn.wfFrom_cons (lo : Nat) (d : Drawn) (ds : List Drawn) :
    Drawn.wfFrom lo (d :: ds) = true ↔ lo ≤ d.base ∧ 0 < d.size ∧ Drawn.wfFrom (d.base + d.size) ds = true := by
  simp [Drawn.wfFrom, and_assoc]

theorem Drawn.wfFrom_mono {lo lo' : Nat} (ds : List Drawn) (h : lo' ≤ lo) (hd : Drawn.wfFrom lo ds = true) :
    Drawn.wfFrom lo' ds = true := by
  cases ds with
  | nil => rfl
  | cons d ds => rw [Drawn.wfFrom_cons] at hd ⊢; exact ⟨by omega, hd.2⟩

theorem Drawn.wfFrom_carve (ds : List Drawn) (lo base size : Nat) (hs : 0 < size) (hd : Drawn.wfFrom lo ds = true) :
    Drawn.wfFrom lo (Drawn.carve ds base size) = true := by
  induction ds generalizing lo with
  | nil => rfl
  | cons d ds ih =>
    obtain ⟨h1, h2, h3⟩ := (Drawn.wfFrom_cons _ _ _).1 hd
    have ih' := ih _ h3
    unfold Drawn.carve at ih' ⊢
    rw [List.flatMap_cons]
    unfold Drawn.without
    split <;> split <;> simp only [List.nil_append, List.cons_append, Drawn.wfFrom_cons]
    · refine ⟨by omega, by omega, by omega, by omega, ?_⟩
      exact Drawn.wfFrom_mono _ (by omega) ih'
    · exact ⟨by omega, by omega, Drawn.wfFrom_mono _ (by omega) ih'⟩
    · exact ⟨by omega, by omega, Drawn.wfFrom_mono _ (by omega) ih'⟩
    · exact Drawn.wfFrom_mono _ (by omega) ih'

theorem Drawn.wfFrom_insert (x : Drawn) (ds : List Drawn) (lo : Nat) (hlo : lo ≤ x.base) (hx : 0 < x.size)
    (hd : Drawn.wfFrom lo ds = true)
    (hfree : ∀ a, x.base ≤ a → a < x.base + x.size → Drawn.find ds a = none) :
    Drawn.wfFrom lo (Drawn.insert x ds) = true := by
  induction ds generalizing lo with
  | nil => exact (Drawn.wfFrom_cons _ _ _).2 ⟨hlo, hx, rfl⟩
  | cons d ds ih =>
    obtain ⟨h1, h2, h3⟩ := (Drawn.wfFrom_cons _ _ _).1 hd
    have hd_free : ∀ a, x.base ≤ a → a < x.base + x.size → ¬ (d.base ≤ a ∧ a < d.base + d.size) := by
      intro a ha hb hc
      have := hfree a ha hb
      simp [Drawn.find, (inRange_iff _ _ _).2 hc] at this
    unfold Drawn.insert
    split
    · rename_i hlt
      refine (Drawn.wfFrom_cons _ _ _).2 ⟨hlo, hx, (Drawn.wfFrom_cons _ _ _).2 ⟨?_, h2, h3⟩⟩
      by_contra hc
      exact hd_free d.base (by omega) (by omega) ⟨by omega, by omega⟩
    · refine (Drawn.wfFrom_cons _ _ _).2 ⟨h1, h2, ih _ ?_ h3 ?_⟩
      · by_contra hc
        exact hd_free x.base (by omega) (by omega) ⟨by omega, by omega⟩
      · intro a ha hb
        have := hfree a ha hb
        simp only [Drawn.find] at this
        split at this
        · cases this
        · exact this

/-- Carving keeps the drawn ranges canonical. -/
theorem Drawn.wf_carve (ds : List Drawn) (base size : Nat) (hs : 0 < size) (hd : Drawn.wf ds = true) :
    Drawn.wf (Drawn.carve ds base size) = true := Drawn.wfFrom_carve ds 0 base size hs hd

/-- A range left by carving lies in an earlier one of the same draw. -/
theorem Drawn.mem_carve {x : Drawn} {ds : List Drawn} {base size : Nat} (h : x ∈ Drawn.carve ds base size) :
    ∃ d ∈ ds, d.base ≤ x.base ∧ x.base + x.size ≤ d.base + d.size ∧ x.draw = d.draw := by
  obtain ⟨d, hd, hx⟩ := List.mem_flatMap.1 h
  refine ⟨d, hd, ?_⟩
  unfold Drawn.without at hx
  rcases List.mem_append.1 hx with hx | hx <;> split at hx <;> simp only [List.mem_singleton, List.not_mem_nil] at hx
  · subst hx; refine ⟨?_, ?_, rfl⟩ <;> simp only <;> omega
  · subst hx; refine ⟨?_, ?_, rfl⟩ <;> simp only <;> omega

theorem Drawn.mem_insert {x y : Drawn} {ds : List Drawn} (h : y ∈ Drawn.insert x ds) : y = x ∨ y ∈ ds := by
  induction ds with
  | nil => simpa [Drawn.insert] using h
  | cons d ds ih =>
    unfold Drawn.insert at h
    split at h
    · simpa using h
    · rcases List.mem_cons.1 h with h | h
      · exact .inr (by simp [h])
      · rcases ih h with h | h
        · exact .inl h
        · exact .inr (by simp [h])

/-! ### Data memory as a whole -/

/-- A read after a write gives the value written there, and the earlier value elsewhere. -/
theorem State.byteAt_setByte (s : State) (a x : Nat) (b : Byte) :
    (s.setByte a b).byteAt x = if x = a then b else s.byteAt x := by
  unfold State.byteAt State.setByte
  simp only [Drawn.find_carve, Memory.get_set]
  by_cases h : x = a
  · subst h; simp
  · have : ¬ (a ≤ x ∧ x < a + 1) := by omega
    rw [if_neg this, if_neg (Ne.symm h), if_neg h]

/-- A read after a draw gives the fresh free value in the drawn range, and the earlier value elsewhere. -/
theorem State.byteAt_drawBytes (s : State) (base size x : Nat) :
    (s.drawBytes base size).byteAt x =
      if base ≤ x ∧ x < base + size then freeByte s.draws x else s.byteAt x := by
  unfold State.drawBytes
  split
  · rw [if_neg (by omega)]
  · unfold State.byteAt
    by_cases h : base ≤ x ∧ x < base + size
    · rw [if_pos h]
      have hc : Drawn.find (Drawn.carve s.drawn base size) x = none := by rw [Drawn.find_carve, if_pos h]
      rw [Drawn.find_insert_of_mem ⟨base, size, s.draws⟩ _ x hc h]
    · rw [if_neg h]
      simp only [Drawn.find_insert_of_not_mem ⟨base, size, s.draws⟩ _ x h, Drawn.find_carve, if_neg h,
        Memory.get_clear]

/-- The byte at an address is a matter of the cells and the drawn ranges alone. -/
theorem State.byteAt_congr {s t : State} (hm : t.mem = s.mem) (hd : t.drawn = s.drawn) (a : Nat) :
    t.byteAt a = s.byteAt a := by unfold State.byteAt; rw [hm, hd]

theorem State.memWf_iff (s : State) :
    s.memWf = true ↔ Memory.wf s.mem = true ∧ Drawn.wf s.drawn = true ∧
      ∀ cell ∈ s.mem, Drawn.find s.drawn cell.1 = none := by
  simp [State.memWf, and_assoc]

/-- The canonical form is a matter of the cells and the drawn ranges alone. -/
theorem State.memWf_congr {s t : State} (hm : t.mem = s.mem) (hd : t.drawn = s.drawn) : t.memWf = s.memWf := by
  unfold State.memWf; rw [hm, hd]

/-- A write keeps data memory canonical. -/
theorem State.memWf_setByte (s : State) (a : Nat) (b : Byte) (h : s.memWf = true) : (s.setByte a b).memWf = true := by
  rw [State.memWf_iff] at h ⊢
  obtain ⟨h1, h2, h3⟩ := h
  refine ⟨Memory.wf_set _ _ _ h1, Drawn.wf_carve _ _ _ (by omega) h2, fun cell hc => ?_⟩
  simp only [State.setByte_drawn, State.setByte_mem] at hc ⊢
  rw [Drawn.find_carve]
  split_ifs with hr
  · rfl
  · rcases Memory.mem_set hc with h | h
    · omega
    · exact h3 cell h

/-- A draw keeps data memory canonical. -/
theorem State.memWf_drawBytes (s : State) (base size : Nat) (h : s.memWf = true) :
    (s.drawBytes base size).memWf = true := by
  unfold State.drawBytes
  split
  · exact h
  · rw [State.memWf_iff] at h ⊢
    obtain ⟨h1, h2, h3⟩ := h
    refine ⟨Memory.wf_clear _ _ _ h1, ?_, fun cell hc => ?_⟩
    · refine Drawn.wfFrom_insert _ _ 0 (by simp) (by simp only; omega) (Drawn.wf_carve _ _ _ (by omega) h2) ?_
      intro a ha hb
      rw [Drawn.find_carve, if_pos ⟨ha, hb⟩]
    · obtain ⟨hm, hr⟩ := Memory.mem_clear.1 hc
      rw [Drawn.find_insert_of_not_mem _ _ _ hr, Drawn.find_carve, if_neg hr]
      exact h3 cell hm

/-! ### `MemOK` -/

theorem memOK_iff (p : Platform) (k : AccessKind) (a : Nat) :
    memOK p k a = true ↔ a < memSize p ∧ inWindow p a = false ∧ ∃ r ∈ p.memMap, regionAdmits r k a = true := by
  simp [memOK, and_assoc]

/-- `MemOK` is a predicate on `ADDR_W`-bit addresses: it is false of every larger number (00_scope.md R8). -/
theorem memOK_lt {p : Platform} {k : AccessKind} {a : Nat} (h : memOK p k a = true) : a < memSize p :=
  ((memOK_iff p k a).1 h).1

/-- Every predicate on addresses and kinds is the `MemOK` of some admission map (00_scope.md R8: "any predicate"). -/
theorem memOK_expresses_every_predicate (p : Platform) (hw : p.windowInMemory = false)
    (f : AccessKind → Nat → Bool) :
    ∃ m : List MemRegion, ∀ k a, a < memSize p → memOK { p with memMap := m } k a = f k a := by
  refine ⟨(List.range (memSize p)).map fun a => ⟨a, 1, f .read a, f .write a⟩, fun k a ha => ?_⟩
  have hs : memSize { p with
      memMap := (List.range (memSize p)).map fun a => ⟨a, 1, f .read a, f .write a⟩ } = memSize p := rfl
  rw [Bool.eq_iff_iff, memOK_iff, hs]
  simp only [ha, inWindow, hw, Bool.false_and, true_and, List.mem_map, List.mem_range, exists_exists_and_eq_and,
    regionAdmits, Bool.and_eq_true, inRange_iff]
  constructor
  · rintro ⟨x, -, hx, hf⟩
    obtain rfl : x = a := by omega
    cases k <;> exact hf
  · intro hf
    exact ⟨a, ha, ⟨le_refl _, by omega⟩, by cases k <;> exact hf⟩

end Sys2Proof.Machine
end

