-- ==== Sys2Proof/Laws/Ops.lean ====
section
/-! SUPPORT. One lemma for each shared operation that says everything it can do: accesses, completion, fault entry,
the checks, issue, register access, and runs. -/

namespace Sys2Proof.Machine

open Sys2Proof Config

/-! ### Accesses -/

theorem State.memRead_admitted {s : State} {l : Latched} {a : Nat} {rest : Byte → State → State}
    (h : memOK s.platform .read a = true) :
    s.memRead l a rest = rest (s.byteAt a) (s.logAccess .read a (s.byteAt a)) := if_pos h

theorem State.memRead_refused {s : State} {l : Latched} {a : Nat} {rest : Byte → State → State}
    (h : memOK s.platform .read a = false) : s.memRead l a rest = s.busError l := by simp [State.memRead, h]

/-- A read is performed or raises BUS_ERROR (60_exceptions.md R207). -/
theorem State.memRead_cases (s : State) (l : Latched) (a : Nat) (rest : Byte → State → State) :
    (memOK s.platform .read a = true ∧
      s.memRead l a rest = rest (s.byteAt a) (s.logAccess .read a (s.byteAt a))) ∨
    (memOK s.platform .read a = false ∧ s.memRead l a rest = s.busError l) := by
  cases h : memOK s.platform .read a
  · exact .inr ⟨rfl, State.memRead_refused h⟩
  · exact .inl ⟨rfl, State.memRead_admitted h⟩

theorem State.memWrite_admitted {s : State} {l : Latched} {a : Nat} {b : Byte} {rest : State → State}
    (h : memOK s.platform .write a = true) :
    s.memWrite l a b rest = rest ((s.setByte a b).logAccess .write a b) := if_pos h

theorem State.memWrite_refused {s : State} {l : Latched} {a : Nat} {b : Byte} {rest : State → State}
    (h : memOK s.platform .write a = false) : s.memWrite l a b rest = s.busError l := by simp [State.memWrite, h]

/-- A write is performed or raises BUS_ERROR (60_exceptions.md R207). -/
theorem State.memWrite_cases (s : State) (l : Latched) (a : Nat) (b : Byte) (rest : State → State) :
    (memOK s.platform .write a = true ∧ s.memWrite l a b rest = rest ((s.setByte a b).logAccess .write a b)) ∨
    (memOK s.platform .write a = false ∧ s.memWrite l a b rest = s.busError l) := by
  cases h : memOK s.platform .write a
  · exact .inr ⟨rfl, State.memWrite_refused h⟩
  · exact .inl ⟨rfl, State.memWrite_admitted h⟩

/-! ### What the updates leave of data memory -/

@[simp] theorem State.byteAt_finish (s : State) (v a : Nat) : (s.finish v).byteAt a = s.byteAt a := rfl
@[simp] theorem State.byteAt_raiseFault (s : State) (c : FaultCode) (a : Nat) :
    (s.raiseFault c).byteAt a = s.byteAt a := rfl
@[simp] theorem State.byteAt_logAccess (s : State) (k : AccessKind) (x : Nat) (b : Byte) (a : Nat) :
    (s.logAccess k x b).byteAt a = s.byteAt a := rfl
@[simp] theorem State.byteAt_setEngine (s : State) (e : Engine) (a : Nat) :
    (s.setEngine e).byteAt a = s.byteAt a := rfl
@[simp] theorem State.byteAt_clearResult (s : State) (a : Nat) : s.clearResult.byteAt a = s.byteAt a := rfl
@[simp] theorem State.byteAt_start (s : State) (e : Engine) (a : Nat) : (s.start e).byteAt a = s.byteAt a := rfl
@[simp] theorem State.byteAt_withInputs (s : State) (x : List Event) (a : Nat) :
    (s.withInputs x).byteAt a = s.byteAt a := rfl
@[simp] theorem State.byteAt_reply (s : State) (x : Reply) (a : Nat) : (s.reply x).byteAt a = s.byteAt a := rfl
@[simp] theorem State.byteAt_resetRegs (s : State) (a : Nat) : s.resetRegs.byteAt a = s.byteAt a := rfl

@[simp] theorem State.memWf_finish (s : State) (v : Nat) : (s.finish v).memWf = s.memWf := rfl
@[simp] theorem State.memWf_raiseFault (s : State) (c : FaultCode) : (s.raiseFault c).memWf = s.memWf := rfl
@[simp] theorem State.memWf_logAccess (s : State) (k : AccessKind) (x : Nat) (b : Byte) :
    (s.logAccess k x b).memWf = s.memWf := rfl
@[simp] theorem State.memWf_setEngine (s : State) (e : Engine) : (s.setEngine e).memWf = s.memWf := rfl
@[simp] theorem State.memWf_clearResult (s : State) : s.clearResult.memWf = s.memWf := rfl
@[simp] theorem State.memWf_start (s : State) (e : Engine) : (s.start e).memWf = s.memWf := rfl
@[simp] theorem State.memWf_withInputs (s : State) (x : List Event) : (s.withInputs x).memWf = s.memWf := rfl
@[simp] theorem State.memWf_reply (s : State) (x : Reply) : (s.reply x).memWf = s.memWf := rfl
@[simp] theorem State.memWf_resetRegs (s : State) : s.resetRegs.memWf = s.memWf := rfl

/-- `finish` of a command with buffers: with result 0 the destination is drawn (40_command_issue.md R113). -/
theorem State.byteAt_finishBuffers (s : State) (l : Latched) (v a : Nat) :
    (s.finishBuffers l v).byteAt a =
      if v = 0 ∧ l.dBase ≤ a ∧ a < l.dBase + l.dCap then freeByte s.draws a else s.byteAt a := by
  unfold State.finishBuffers
  by_cases hv : v = 0
  · simp [hv, State.byteAt_drawBytes]
  · simp [hv]

/-- BUS_ERROR leaves the destination drawn (60_exceptions.md R210). -/
theorem State.byteAt_busError (s : State) (l : Latched) (a : Nat) :
    (s.busError l).byteAt a =
      if l.dBase ≤ a ∧ a < l.dBase + l.dCap then freeByte s.draws a else s.byteAt a := by
  simp [State.busError, State.byteAt_drawBytes]

theorem State.memWf_finishBuffers (s : State) (l : Latched) (v : Nat) (h : s.memWf = true) :
    (s.finishBuffers l v).memWf = true := by
  unfold State.finishBuffers
  split
  · exact State.memWf_drawBytes _ _ _ (by simpa using h)
  · simpa using h

theorem State.memWf_busError (s : State) (l : Latched) (h : s.memWf = true) : (s.busError l).memWf = true :=
  State.memWf_drawBytes _ _ _ (by simpa using h)

theorem State.memWf_resetBlock (s : State) (h : s.memWf = true) : s.resetBlock.memWf = true := by
  unfold State.resetBlock
  split
  · exact State.memWf_drawBytes _ _ _ (by simpa using h)
  · simpa using h

@[simp] theorem State.byteAt_clearMemory (s : State) (a : Nat) : s.clearMemory.byteAt a = unlistedByte := rfl

@[simp] theorem State.memWf_clearMemory (s : State) : s.clearMemory.memWf = true := rfl

theorem State.memWf_resetPlatform (s : State) (h : s.memWf = true) : s.resetPlatform.memWf = true := by
  unfold State.resetPlatform
  split
  · exact State.memWf_resetBlock _ (State.memWf_clearMemory s)
  · exact State.memWf_resetBlock _ h

/-- The bytes after a reset of the block: any value in the destination of an abandoned command, else as before. -/
theorem State.byteAt_resetBlock (s : State) (a : Nat) :
    s.resetBlock.byteAt a = match s.engine.buffers with
      | some l => if l.dBase ≤ a ∧ a < l.dBase + l.dCap then freeByte s.draws a else s.byteAt a
      | none => s.byteAt a := by
  unfold State.resetBlock
  cases s.engine.buffers <;> simp [State.byteAt_drawBytes]

/-! ### POLL -/

/-- Everything one read of a POLL loop can do (30_encoding.md R81): leave the loop, or stand before the next read. -/
theorem hostPollRead_cases (f : RegField) (v : Nat) (gaps : List Nat) (s : State) :
    (fieldValue s.platform f (readReg (fieldReg f) s) = v ∧
      hostPollRead f v gaps s = s.reply (.reg (fieldReg f) (readReg (fieldReg f) s))) ∨
    (fieldValue s.platform f (readReg (fieldReg f) s) ≠ v ∧
      hostPollRead f v gaps s = (s.reply (.reg (fieldReg f) (readReg (fieldReg f) s))).withInputs
        (List.replicate (gaps.headD 1) .engine ++ .poll f v gaps.tail :: s.inputs)) := by
  unfold hostPollRead afterPollRead
  split
  · exact .inl ⟨‹_›, rfl⟩
  · refine .inr ⟨‹_›, ?_⟩
    cases gaps <;> simp

/-- STATUS.BUSY as a host reads it (10_state.md R22). -/
theorem fieldValue_busy (s : State) : fieldValue s.platform .busy (readReg .status s) = s.busy.toNat := by
  change ((State.statusWord s).extractLsb' 0 1).toNat = s.busy.toNat
  unfold State.statusWord
  generalize s.busy = b, s.done = d, s.faulted = f
  revert b d f
  decide

/-! ### The checks of issue -/

theorem nullBase_iff (l : Latched) : nullBase l = true ↔ l.sBase = 0 ∨ l.dBase = 0 := by simp [nullBase]

theorem wrapsAround_iff (p : Platform) (l : Latched) :
    wrapsAround p l = true ↔ memSize p < l.sBase + l.sLen ∨ memSize p < l.dBase + l.dCap := by simp [wrapsAround]

theorem overlapping_iff (l : Latched) :
    overlapping l = true ↔
      0 < l.sLen ∧ 0 < l.dCap ∧ l.sBase < l.dBase + l.dCap ∧ l.dBase < l.sBase + l.sLen := by
  simp [overlapping, and_assoc]

/-- What passing the three checks gives (20_memory.md R54). -/
theorem bufferFault_eq_none_iff (p : Platform) (l : Latched) :
    bufferFault p l = none ↔ nullBase l = false ∧ wrapsAround p l = false ∧ overlapping l = false := by
  unfold bufferFault
  split_ifs <;> simp_all

theorem State.takesCommand_iff (s : State) : s.takesCommand = true ↔ s.fault = .none ∧ s.busy = false := by
  simp [State.takesCommand]

/-- Issue of a command with buffers: ignored, a check's fault, or started. -/
theorem issueBuffers_cases (init : Latched → Engine) (s : State) :
    (s.takesCommand = false ∧ issueBuffers init s = s) ∨
    (s.takesCommand = true ∧ ∃ c, bufferFault s.platform s.latch = some c ∧
      issueBuffers init s = s.clearResult.raiseFault c) ∨
    (s.takesCommand = true ∧ bufferFault s.platform s.latch = none ∧
      issueBuffers init s = s.clearResult.start (init s.latch)) := by
  unfold issueBuffers
  cases s.takesCommand
  · exact .inl ⟨rfl, rfl⟩
  · cases bufferFault s.platform s.latch with
    | none => exact .inr (.inr ⟨rfl, rfl, rfl⟩)
    | some c => exact .inr (.inl ⟨rfl, c, rfl, rfl⟩)

/-- Issue of a sizing command: ignored or started. -/
theorem issueSizing_cases (op : Sizing) (s : State) :
    (s.takesCommand = false ∧ issueSizing op s = s) ∨
    (s.takesCommand = true ∧ issueSizing op s = s.clearResult.start (.size op s.latch)) := by
  unfold issueSizing
  cases s.takesCommand
  · exact .inl ⟨rfl, rfl⟩
  · exact .inr ⟨rfl, rfl⟩

/-- A CMD write of an illegal word: ignored or a fault. -/
theorem issueIllegal_cases (s : State) :
    (s.takesCommand = false ∧ issueIllegal s = s) ∨
    (s.takesCommand = true ∧ issueIllegal s = s.raiseFault .illegalCmd) := by
  unfold issueIllegal
  cases s.takesCommand
  · exact .inl ⟨rfl, rfl⟩
  · exact .inr ⟨rfl, rfl⟩

/-! ### Register fields -/

theorem memSize_pos (p : Platform) : 0 < memSize p := by simp [memSize]

theorem fieldNat_lt (p : Platform) (v : Word) : fieldNat p v < memSize p := Nat.mod_lt _ (memSize_pos p)

theorem Config.Platform.wf_iff (p : Platform) :
    p.wf = true ↔ 8 ≤ p.addrW ∧ p.addrW ≤ 32 ∧ p.regBase % 32 = 0 := by
  simp [Config.Platform.wf, and_assoc]

theorem memSize_le_word {p : Platform} (h : p.addrW ≤ 32) : memSize p ≤ 2 ^ 32 :=
  Nat.pow_le_pow_right (by omega) h

theorem toNat_fieldWord (p : Platform) (v : Word) : (fieldWord p v).toNat = fieldNat p v := by
  have h : fieldNat p v < 2 ^ 32 := Nat.lt_of_le_of_lt (Nat.mod_le _ _) v.isLt
  rw [fieldWord, BitVec.toNat_ofNat, Nat.mod_eq_of_lt h]

theorem fieldNat_of_lt {p : Platform} {v : Word} (h : v.toNat < memSize p) : fieldNat p v = v.toNat :=
  Nat.mod_eq_of_lt h

@[simp] theorem fieldNat_fieldWord (p : Platform) (v : Word) : fieldNat p (fieldWord p v) = fieldNat p v := by
  rw [fieldNat, toNat_fieldWord, Nat.mod_eq_of_lt (fieldNat_lt p v)]

@[simp] theorem fieldWord_fieldWord (p : Platform) (v : Word) : fieldWord p (fieldWord p v) = fieldWord p v := by
  rw [fieldWord, fieldNat_fieldWord, fieldWord]

/-- A word access at a register's address reaches that register (10_state.md R20). -/
@[simp] theorem regAt_regOffset (p : Platform) (r : Reg) : regAt p (p.regBase + regOffset r) 4 = some r := by
  cases r <;> simp [regAt, wordAccess, regOffset, regOfOffset]

@[simp] theorem regAt_regBase (p : Platform) : regAt p p.regBase 4 = some .cmd := regAt_regOffset p .cmd

/-! ### The engine's turn in each phase (40_command_issue.md R111) -/

theorem engineTurn_idle {s : State} (h : s.engine = .idle) : engineTurn s = s := by
  unfold engineTurn; rw [h]
theorem engineTurn_enc {s : State} {r : EncRegs} (h : s.engine = .enc r) : engineTurn s = encStep r s := by
  unfold engineTurn; rw [h]
theorem engineTurn_decFirst {s : State} {r : FirstRegs} (h : s.engine = .decFirst r) :
    engineTurn s = decFirstStep r s := by
  unfold engineTurn; rw [h]
theorem engineTurn_decScan {s : State} {r : ScanRegs} (h : s.engine = .decScan r) :
    engineTurn s = decScanStep r s := by
  unfold engineTurn; rw [h]
theorem engineTurn_size {s : State} {op : Sizing} {l : Latched} (h : s.engine = .size op l) :
    engineTurn s = sizeStep op l s := by
  unfold engineTurn; rw [h]

/-! ### Runs -/

@[simp] theorem runs_zero (s t : State) : Runs 0 s t ↔ s = t := by
  constructor
  · intro h; cases h; rfl
  · rintro rfl; rfl

theorem runs_succ (k : Nat) (s u : State) : Runs (k + 1) s u ↔ ∃ t, step s = .next t ∧ Runs k t u := by
  unfold Runs
  cases h : step s with
  | next t =>
    have h' : Sys2Proof.core.step s = .next t := h
    simp only [Host.Core.run, h']
    exact ⟨fun hr => ⟨t, rfl, hr⟩, by rintro ⟨t', ht, hr⟩; cases ht; exact hr⟩
  | fault r =>
    have h' : Sys2Proof.core.step s = .fault r := h
    simp only [Host.Core.run, h']
    constructor
    · intro hr; cases hr
    · rintro ⟨t', ht, -⟩; cases ht
  | refused r =>
    have h' : Sys2Proof.core.step s = .refused r := h
    simp only [Host.Core.run, h']
    constructor
    · intro hr; cases hr
    · rintro ⟨t', ht, -⟩; cases ht

theorem runs_append {j k : Nat} {s t u : State} (h : Runs j s t) (h' : Runs k t u) : Runs (j + k) s u := by
  induction j generalizing s with
  | zero => obtain rfl := (runs_zero s t).1 h; simpa using h'
  | succ j ih =>
    obtain ⟨m, hm, hr⟩ := (runs_succ j s t).1 h
    rw [Nat.add_right_comm]
    exact (runs_succ _ _ _).2 ⟨m, hm, ih hr⟩

/-- With no event left, a step is the engine's turn (70_reset_and_hazards.md R241). -/
theorem step_of_no_inputs {s : State} (h : s.inputs = []) : step s = .next (engineTurn s) := by
  unfold step takeTurn; rw [h]

theorem step_of_event {s : State} {e : Event} {rest : List Event} (h : s.inputs = e :: rest) :
    step s = takeEvent e (s.withInputs rest) := by
  unfold step takeTurn; rw [h]

/-- Both forms of the engine's turn: no event left, or the engine's own event next. -/
theorem step_of_engineNext {s : State} (h : s.engineNext) :
    step s = .next (engineTurn (s.withInputs s.inputs.tail)) := by
  rcases h with h | h
  · have hs : s.withInputs s.inputs.tail = s := by
      cases s; simp only at h; subst h; rfl
    rw [step_of_no_inputs h, hs]
  · obtain ⟨e, rest, hr⟩ : ∃ e rest, s.inputs = e :: rest := by
      cases hi : s.inputs with
      | nil => rw [hi] at h; cases h
      | cons e rest => exact ⟨e, rest, rfl⟩
    rw [hr] at h
    obtain rfl : e = .engine := by simpa using h
    rw [step_of_event hr, hr]
    rfl

end Sys2Proof.Machine
end

