-- ==== Sys2Proof/Laws/PerInstr.lean ====
section
/-! SUPPORT. Statements about every command as syntax, one lemma a constructor. -/

namespace Sys2Proof.Laws

/-- The word of a command has its reserved bits zero and its own code in OP (30_encoding.md R72, R73). -/
def CmdFields.Statement (i : Instr) : Prop := cmdRsvd (encodeCmd i) = 0 ∧ cmdOp (encodeCmd i) = opCode i

theorem CmdFields.encode : CmdFields.Statement .encode := by unfold CmdFields.Statement; decide
theorem CmdFields.decode : CmdFields.Statement .decode := by unfold CmdFields.Statement; decide
theorem CmdFields.minenc : CmdFields.Statement .minenc := by unfold CmdFields.Statement; decide
theorem CmdFields.mindec : CmdFields.Statement .mindec := by unfold CmdFields.Statement; decide

end Sys2Proof.Laws
end

