-- ==== Sys2Proof/Tests/Slice0.lean ====
section
/-! SUPPORT. The model's own tests: words written out from the command map, the checks on ill-formed terms, one step of
each kind with its expected result from the spec, and for each statement a state and operands that meet its
hypotheses. -/

namespace Sys2Proof.Tests

open Sys2Proof Sys2Proof.Config Sys2Proof.Machine

/-! ### Decoding (30_encoding.md R72 to R74) -/

theorem test_decode_encode_word : decodeCmd 0b00000000000000000000000000000001 = .ok .encode := by decide
theorem test_decode_decode_word : decodeCmd 0b00000000000000000000000000000010 = .ok .decode := by decide
theorem test_decode_minenc_word : decodeCmd 0b00000000000000000000000000000011 = .ok .minenc := by decide
theorem test_decode_mindec_word : decodeCmd 0b00000000000000000000000000000100 = .ok .mindec := by decide
theorem test_decode_word_0_illegal : decodeCmd 0x00000000 = .error .reservedOp := by decide
theorem test_decode_word_5_illegal : decodeCmd 0x00000005 = .error .reservedOp := by decide
theorem test_decode_bit_3_illegal : decodeCmd 0x00000009 = .error .reservedBits := by decide
theorem test_decode_bit_31_illegal : decodeCmd 0x80000003 = .error .reservedBits := by decide
theorem test_decodeTableWord_row : decodeTableWord 32 4 = some .mindec := by decide
theorem test_decodeTableWord_wide_illegal : decodeTableWord 40 0x100000001 = none := by decide

/-! ### Ill-formed terms (00_scope.md R7, R8; 20_memory.md R56; the canonical form of memory) -/

theorem test_wf_default : defaultPlatform.wf = true := by decide
theorem test_wf_refuses_narrow : { defaultPlatform with addrW := 7 }.wf = false := by decide
theorem test_wf_refuses_wide : { defaultPlatform with addrW := 33 }.wf = false := by decide
theorem test_wf_refuses_base : { defaultPlatform with regBase := 0x40000004 }.wf = false := by decide
theorem test_wordAccess_refuses_byte : wordAccess 0x40000000 0x40000000 1 = false := by decide
theorem test_wordAccess_refuses_misaligned : wordAccess 0x40000000 0x40000002 4 = false := by decide
theorem test_memory_wf_refuses_unsorted : Memory.wf [(5, 1), (4, 1)] = false := by decide
theorem test_memory_wf_refuses_unlisted_byte : Memory.wf [(5, 0)] = false := by decide
theorem test_drawn_wf_refuses_overlap : Drawn.wf [⟨0, 4, 0⟩, ⟨3, 1, 1⟩] = false := by decide

/-- 20_memory.md R51: an engine access routed to the block's own window is refused. -/
theorem test_memOK_refuses_window : memOK ⟨8, 0x20, true, [⟨0, 256, true, true⟩], false⟩ .read 0x20 = false := by decide

/-! ### Small states -/

/-- 8-bit addresses, the engine admitted at `0x10` to `0xEF`. -/
def p8 : Platform := ⟨8, 0x40000000, false, [⟨0x10, 0xE0, true, true⟩], false⟩

/-- A quiet block with these arguments and coming events. -/
def quiet (sA sL dA dC : Word) (ins : List Event) : State :=
  { State.reset with platform := p8, srcAddr := sA, srcLen := sL, dstAddr := dA, dstCap := dC, inputs := ins }

/-- A busy block in this engine state, with these cells and coming events. -/
def busyAt (e : Engine) (cells : Memory) (ins : List Event) : State :=
  { State.reset with platform := p8, busy := true, engine := e, mem := cells, inputs := ins }

/-- A block faulted with NULL_ADDR. -/
def faultedAt (ins : List Event) : State := { quiet 0 0 0 0 ins with fault := .nullAddr }

/-- Source at `0x10`, 4 bytes; destination at `0x20`, 6 bytes. -/
def args6 : Latched := ⟨0x10, 4, 0x20, 6⟩

/-- An active ENCODE on a platform whose own reset clears memory. -/
def clearing (ins : List Event) : State :=
  { busyAt (.enc ⟨args6, 2, 3, 0⟩) [(0x10, 0x11)] ins with platform := { p8 with resetClearsMemory := true } }

/-- The payload `11 22 00 33` at `0x10` (95_test_vectors.md S3). -/
def payloadS3 : Memory := [(0x10, 0x11), (0x11, 0x22), (0x13, 0x33)]

/-- The frame `03 11 22 02 33 00` at `0x10`. -/
def frameS3 : Memory := [(0x10, 0x03), (0x11, 0x11), (0x12, 0x22), (0x13, 0x02), (0x14, 0x33)]

/-- Source at `0x10`, 6 bytes; destination at `0x20`, 4 bytes. -/
def argsD : Latched := ⟨0x10, 6, 0x20, 4⟩

/-- A test of the next state; false where the machine stops. -/
def next (o : Host.Outcome State Fault Refusal) (p : State → Bool) : Bool :=
  match o with
  | .next t => p t
  | .fault _ => false
  | .refused _ => false

/-! ### From reset, with a command placed as the next step (70_reset_and_hazards.md R234 item 3) -/

theorem test_reset_encode_raises_null :
    next (step (State.reset.withFetchWord 32 1)) (fun t => decide (t.fault = .nullAddr ∧ t.engine = .idle)) = true := by
  decide
theorem test_reset_decode_raises_null :
    next (step (State.reset.withFetchWord 32 2)) (fun t => decide (t.fault = .nullAddr ∧ t.busy = false)) = true := by
  decide
theorem test_reset_minenc_starts :
    next (step (State.reset.withFetchWord 32 3)) (fun t => decide (t.busy = true ∧ t.engine.op = some .minenc)) = true := by
  decide
theorem test_reset_mindec_starts :
    next (step (State.reset.withFetchWord 32 4)) (fun t => decide (t.busy = true ∧ t.engine.op = some .mindec)) = true := by
  decide

/-! ### One step a test -/

/-- S3 step 3 (41_encode.md R125): the payload zero closes the block of two data bytes with code 3. -/
theorem test_encode_zero_close :
    next (step (busyAt (.enc ⟨args6, 2, 3, 0⟩) payloadS3 [])) (fun t =>
      decide (t.byteAt 0x20 = 0x03 ∧ t.engine = .enc ⟨args6, 3, 4, 3⟩)) = true := by decide

/-- S3's last step (41_encode.md R127): `02` at offset 3, the terminator at 5, result 6. -/
theorem test_encode_final :
    next (step (busyAt (.enc ⟨args6, 4, 5, 3⟩) payloadS3 [])) (fun t =>
      decide (t.byteAt 0x23 = 0x02 ∧ t.result = 6 ∧ t.done = true ∧ t.trace.length = 2)) = true := by decide

/-- The worked example of 42_decode.md R150 at offset 3: code 2 emits the implied zero at output 2. -/
theorem test_decode_code_byte :
    next (step (busyAt (.decScan ⟨argsD, 3, 2, 3, 3, false⟩) frameS3 [])) (fun t =>
      decide (t.byteAt 0x22 = 0x00 ∧ t.engine = .decScan ⟨argsD, 4, 3, 5, 2, false⟩)) = true := by decide

/-- 42_decode.md R153: a first byte of 0 is code 0 with next code position 0. -/
theorem test_decode_leading_zero :
    next (step (busyAt (.decFirst ⟨argsD, 0, false⟩) [] [])) (fun t =>
      decide (t.engine = .decScan ⟨argsD, 1, 0, 0, 0, false⟩)) = true := by decide

/-- 43_sizing.md R180: 255 gives 258. -/
theorem test_minenc_255 :
    next (step { State.reset with busy := true, engine := .size .minenc ⟨0, 255, 0, 0⟩ }) (fun t =>
      decide (t.result = 258 ∧ t.done = true)) = true := by decide

/-- 43_sizing.md R181: for 8 bits `0xFD` is the largest length that fits, so `0xFE` gives 0. -/
theorem test_minenc_overflow :
    next (step (busyAt (.size .minenc ⟨0, 0xFE, 0, 0⟩) [] [])) (fun t => decide (t.result = 0 ∧ t.done = true)) = true := by
  decide

/-- 43_sizing.md R182: 258 gives 256. -/
theorem test_mindec_258 :
    next (step { State.reset with busy := true, engine := .size .mindec ⟨0, 258, 0, 0⟩ }) (fun t =>
      decide (t.result = 256 ∧ t.done = true)) = true := by decide

/-- 43_sizing.md R182: 2 gives 0. -/
theorem test_mindec_2 :
    next (step (busyAt (.size .mindec ⟨0, 2, 0, 0⟩) [] [])) (fun t => decide (t.result = 0 ∧ t.done = true)) = true := by
  decide

/-- 30_encoding.md R81: a POLL whose field holds the value leaves the loop, with one read. -/
theorem test_poll_ends :
    next (step (quiet 0 0 0 0 [.poll .busy 0 []])) (fun t =>
      decide (t.inputs = [] ∧ t.replies = [.reg .status 0])) = true := by decide

/-- 30_encoding.md R81: a POLL whose field does not hold the value reads again; the given gap of 0 turns of the engine
is used up. -/
theorem test_poll_goes_on :
    next (step (busyAt (.enc ⟨args6, 2, 3, 0⟩) payloadS3 [.poll .busy 0 [0, 2], .memRd 5])) (fun t =>
      decide (t.inputs = [.poll .busy 0 [2], .memRd 5] ∧ t.replies = [.reg .status 1])) = true := by decide

/-- 30_encoding.md R71: the fields of STATUS and FAULT in words written out. -/
theorem test_fieldValue :
    fieldValue p8 .busy 0b001 = 1 ∧ fieldValue p8 .done 0b010 = 1 ∧ fieldValue p8 .faulted 0b100 = 1 ∧
      fieldValue p8 .code 0x15 = 5 ∧ fieldValue p8 .srcLen 0x1FF = 0xFF ∧ fieldValue p8 .cmdRsvd 0x1F = 3 := by decide

/-- 93_implementation_defined.md U15: the platform's own reset clears a source byte where the platform does so. -/
theorem test_platformReset_clears :
    next (step (clearing [.platformReset])) (fun t => decide (t.byteAt 0x10 = 0x00 ∧ t.engine = .idle)) = true := by
  decide

/-! ### Witnesses: a state and operands that meet each statement's hypotheses -/

/-- A CMD write of `v` next. -/
def cmdNext (v : Word) : List Event := [.regWr 0x40000000 4 v]

theorem witness_EncodedCommandDecodesToItself : Instr.wf .mindec = true := by decide

theorem witness_StepRunsTheDecodedCommand :
    (quiet 0x10 4 0x20 6 (cmdNext 2)).inputs = .regWr (quiet 0x10 4 0x20 6 (cmdNext 2)).platform.regBase 4 2 :: [] ∧
      decodeCmd 2 = .ok .decode := by decide

theorem witness_CmdWriteIgnoredWhileFaultedOrBusy :
    ((faultedAt (cmdNext 1)).inputs = .regWr (faultedAt (cmdNext 1)).platform.regBase 4 1 :: [] ∧
      (faultedAt (cmdNext 1)).fault ≠ .none) ∧
    (busyAt (.enc ⟨args6, 2, 3, 0⟩) payloadS3 (cmdNext 9)).inputs = .regWr p8.regBase 4 9 :: [] ∧
      (busyAt (.enc ⟨args6, 2, 3, 0⟩) payloadS3 (cmdNext 9)).busy = true := by decide

theorem witness_IllegalWordRaisesIllegalCmd :
    (quiet 0 0 0 0 (cmdNext 5)).inputs = .regWr p8.regBase 4 5 :: [] ∧ (quiet 0 0 0 0 (cmdNext 5)).fault = .none ∧
      (quiet 0 0 0 0 (cmdNext 5)).busy = false ∧ ∀ i, decodeCmd 5 ≠ .ok i :=
  ⟨by decide, by decide, by decide, fun i => by cases i <;> decide⟩

/-- For EncodeIsAccepted and DecodeIsAccepted: the destination ends at the last address, the source ends where it
begins. -/
theorem witness_buffers_accepted :
    0x10 = (quiet 0x10 0xE0 0xF0 0x10 []).srcAddr.toNat % 2 ^ (quiet 0x10 0xE0 0xF0 0x10 []).platform.addrW ∧
    0xE0 = (quiet 0x10 0xE0 0xF0 0x10 []).srcLen.toNat % 2 ^ p8.addrW ∧
    0xF0 = (quiet 0x10 0xE0 0xF0 0x10 []).dstAddr.toNat % 2 ^ p8.addrW ∧
    0x10 = (quiet 0x10 0xE0 0xF0 0x10 []).dstCap.toNat % 2 ^ p8.addrW ∧
    (quiet 0x10 0xE0 0xF0 0x10 []).fault = .none ∧ (quiet 0x10 0xE0 0xF0 0x10 []).busy = false ∧
    0x10 + 0xE0 ≤ 2 ^ p8.addrW ∧ 0xF0 + 0x10 ≤ 2 ^ p8.addrW ∧ 0x10 + 0xE0 ≤ 0xF0 := by decide

/-- The other three disjuncts of the acceptance condition: an empty source inside the destination, an empty
destination inside the source, and a destination that ends where the source begins. -/
theorem witness_buffers_accepted_disjuncts :
    bufferFault p8 ⟨0x12, 0, 0x10, 8⟩ = none ∧ bufferFault p8 ⟨0x10, 8, 0x12, 0⟩ = none ∧
    bufferFault p8 ⟨0x20, 8, 0x10, 0x10⟩ = none := by decide

/-- For SizingIsAcceptedWithoutChecks, MinencComputesMinEncodedSize and MindecComputesMinDecodedSize: null and wrapping
buffer registers. -/
theorem witness_sizing :
    (quiet 0 0xFE 0 0xFF []).inputs = [] ∧ (quiet 0 0xFE 0 0xFF []).fault = .none ∧
      (quiet 0 0xFE 0 0xFF []).busy = false ∧ 0xFE = (quiet 0 0xFE 0 0xFF []).srcLen.toNat % 2 ^ p8.addrW ∧
      256 = (if 0xFE = 0 then 2 else 0xFE + 2 + (0xFE - 1) / 254) := by decide

theorem witness_NullBaseRaisesNullAddr :
    (quiet 0x100 4 0x20 6 []).fault = .none ∧ (quiet 0x100 4 0x20 6 []).busy = false ∧
      (quiet 0x100 4 0x20 6 []).srcAddr.toNat % 2 ^ p8.addrW = 0 ∧
      (quiet 0x10 0 0 0 []).dstAddr.toNat % 2 ^ p8.addrW = 0 := by decide

theorem witness_WrappingBufferRaisesRange :
    0xF0 = (quiet 0xF0 0x11 0x20 6 []).srcAddr.toNat % 2 ^ (quiet 0xF0 0x11 0x20 6 []).platform.addrW ∧
    0x11 = (quiet 0xF0 0x11 0x20 6 []).srcLen.toNat % 2 ^ p8.addrW ∧
    0x20 = (quiet 0xF0 0x11 0x20 6 []).dstAddr.toNat % 2 ^ p8.addrW ∧
    6 = (quiet 0xF0 0x11 0x20 6 []).dstCap.toNat % 2 ^ p8.addrW ∧
    (quiet 0xF0 0x11 0x20 6 []).fault = .none ∧ (quiet 0xF0 0x11 0x20 6 []).busy = false ∧
    0xF0 + 0x11 > 2 ^ p8.addrW := by decide

/-- The same with the destination that wraps. -/
theorem witness_WrappingBufferRaisesRange_destination :
    0x20 = (quiet 0x20 6 0xF0 0x11 []).srcAddr.toNat % 2 ^ p8.addrW ∧
    6 = (quiet 0x20 6 0xF0 0x11 []).srcLen.toNat % 2 ^ p8.addrW ∧
    0xF0 = (quiet 0x20 6 0xF0 0x11 []).dstAddr.toNat % 2 ^ p8.addrW ∧
    0x11 = (quiet 0x20 6 0xF0 0x11 []).dstCap.toNat % 2 ^ p8.addrW ∧ 0xF0 + 0x11 > 2 ^ p8.addrW := by decide

/-- The buffers share one byte, at `0x13`. -/
theorem witness_IntersectingBuffersRaiseOverlap :
    0x10 = (quiet 0x10 4 0x13 6 []).srcAddr.toNat % 2 ^ (quiet 0x10 4 0x13 6 []).platform.addrW ∧
    4 = (quiet 0x10 4 0x13 6 []).srcLen.toNat % 2 ^ p8.addrW ∧
    0x13 = (quiet 0x10 4 0x13 6 []).dstAddr.toNat % 2 ^ p8.addrW ∧
    6 = (quiet 0x10 4 0x13 6 []).dstCap.toNat % 2 ^ p8.addrW ∧
    (quiet 0x10 4 0x13 6 []).fault = .none ∧ (quiet 0x10 4 0x13 6 []).busy = false ∧
    0x10 + 4 ≤ 2 ^ p8.addrW ∧ 0x13 + 6 ≤ 2 ^ p8.addrW ∧ 0x10 < 0x13 + 6 ∧ 0x13 < 0x10 + 4 := by decide

theorem witness_IssueFrame :
    (∃ t, exec .encode (quiet 0x10 4 0x20 6 []) = .next t) ∧ (∃ t, exec .mindec (quiet 0 4 0 0 []) = .next t) :=
  ⟨⟨_, rfl⟩, ⟨_, rfl⟩⟩

/-- For EncodeCapacityAbort: cursor at capacity 2. -/
theorem witness_EncodeCapacityAbort :
    (busyAt (.enc ⟨⟨0x10, 4, 0x20, 2⟩, 1, 2, 0⟩) payloadS3 [.engine]).engineNext ∧ 1 < 4 ∧ 2 ≥ 2 := by decide

/-- The registers of an ENCODE whose block is full: 254 data bytes after code slot 0. -/
def fullRegs : EncRegs := ⟨⟨0x10, 255, 0x110, 300⟩, 254, 255, 0⟩

/-- A busy block with 16-bit addresses, all admitted, in that state. -/
def fullState : State :=
  { busyAt (.enc fullRegs) [] [] with platform := ⟨16, 0x40000000, false, [⟨0, 0x10000, true, true⟩], false⟩ }

theorem witness_EncodeFullBlockClose :
    fullState.engineNext ∧ fullState.engine = .enc fullRegs ∧ fullRegs.inp < fullRegs.args.sLen ∧
      fullRegs.w < fullRegs.args.dCap ∧ fullRegs.w - fullRegs.c = 255 ∧
      memOK fullState.platform .write (fullRegs.args.dBase + fullRegs.c) = true := by decide

theorem witness_EncodeZeroClose :
    (busyAt (.enc ⟨args6, 2, 3, 0⟩) payloadS3 []).engineNext ∧ 2 < args6.sLen ∧ 3 < args6.dCap ∧ 3 - 0 < 255 ∧
      memOK p8 .read (args6.sBase + 2) = true ∧
      (busyAt (.enc ⟨args6, 2, 3, 0⟩) payloadS3 []).byteAt (args6.sBase + 2) = 0x00 ∧
      memOK p8 .write (args6.dBase + 0) = true := by decide

theorem witness_EncodeCopy :
    (busyAt (.enc ⟨args6, 3, 4, 3⟩) payloadS3 [.engine]).engineNext ∧ 3 < args6.sLen ∧ 4 < args6.dCap ∧
      4 - 3 < 255 ∧ memOK p8 .read (args6.sBase + 3) = true ∧
      (busyAt (.enc ⟨args6, 3, 4, 3⟩) payloadS3 [.engine]).byteAt (args6.sBase + 3) ≠ 0x00 ∧
      memOK p8 .write (args6.dBase + 4) = true := by decide

/-- Both branches: capacity 5 leaves no room for the terminator, capacity 6 the last one. -/
theorem witness_EncodeFinalClose :
    (busyAt (.enc ⟨⟨0x10, 4, 0x20, 5⟩, 4, 5, 3⟩) payloadS3 []).engineNext ∧ 5 ≥ 5 ∧
    (busyAt (.enc ⟨args6, 4, 5, 3⟩) payloadS3 []).engineNext ∧ 4 = args6.sLen ∧ 5 < args6.dCap ∧ 3 < 5 ∧
      5 - 3 ≤ 255 ∧ memOK p8 .write (args6.dBase + 3) = true ∧ memOK p8 .write (args6.dBase + 5) = true := by decide

theorem witness_DecodeEmptyFrame :
    (busyAt (.decFirst ⟨⟨0x10, 0, 0x20, 4⟩, 0, false⟩) [] []).engineNext ∧
      (⟨0x10, 0, 0x20, 4⟩ : Latched).sLen = 0 := by decide

theorem witness_DecodeInitialCode :
    (busyAt (.decFirst ⟨⟨0x10, 1, 0x20, 4⟩, 0, false⟩) frameS3 []).engineNext ∧ memOK p8 .read 0x10 = true := by decide

theorem witness_DecodeInputExhausted :
    (busyAt (.decScan ⟨⟨0x10, 5, 0x20, 4⟩, 5, 4, 5, 2, false⟩) frameS3 [.engine]).engineNext ∧
      (⟨0x10, 5, 0x20, 4⟩ : Latched).sLen = 5 := by decide

/-- The terminator at the last offset of 6, and the same byte with a seventh after it. -/
theorem witness_DecodeTerminator :
    (busyAt (.decScan ⟨argsD, 5, 4, 5, 2, false⟩) frameS3 []).engineNext ∧ 5 < argsD.sLen ∧
      memOK p8 .read (argsD.sBase + 5) = true ∧
      (busyAt (.decScan ⟨argsD, 5, 4, 5, 2, false⟩) frameS3 []).byteAt (argsD.sBase + 5) = 0x00 ∧
      4 = (if 5 + 1 = argsD.sLen then 4 else 0) ∧ 0 = (if 5 + 1 = 7 then 4 else 0) := by decide

theorem witness_DecodeCapacityAbort :
    (busyAt (.decScan ⟨⟨0x10, 6, 0x20, 3⟩, 4, 3, 5, 2, false⟩) frameS3 []).engineNext ∧ 4 < 6 ∧
      memOK p8 .read (0x10 + 4) = true ∧
      (busyAt (.decScan ⟨⟨0x10, 6, 0x20, 3⟩, 4, 3, 5, 2, false⟩) frameS3 []).byteAt (0x10 + 4) ≠ 0x00 ∧
      3 ≥ 3 := by decide

/-- Both clauses: the code before is 3, and the code before is 255 (a shape no frame of this length has, but a state
of the scan). -/
theorem witness_DecodeCodeByte :
    (busyAt (.decScan ⟨argsD, 3, 2, 3, 3, false⟩) frameS3 []).engineNext ∧ 3 < argsD.sLen ∧
      memOK p8 .read (argsD.sBase + 3) = true ∧
      0x02 = (busyAt (.decScan ⟨argsD, 3, 2, 3, 3, false⟩) frameS3 []).byteAt (argsD.sBase + 3) ∧
      (0x02 : Byte) ≠ 0x00 ∧ 2 < argsD.dCap ∧ (0x03 : Byte) ≠ 0xFF ∧ memOK p8 .write (argsD.dBase + 2) = true ∧
      0x02 = (busyAt (.decScan ⟨argsD, 3, 2, 3, 0xFF, false⟩) frameS3 []).byteAt (argsD.sBase + 3) := by decide

theorem witness_DecodeDataByte :
    (busyAt (.decScan ⟨argsD, 4, 3, 5, 2, false⟩) frameS3 []).engineNext ∧ 4 < argsD.sLen ∧
      memOK p8 .read (argsD.sBase + 4) = true ∧
      0x33 = (busyAt (.decScan ⟨argsD, 4, 3, 5, 2, false⟩) frameS3 []).byteAt (argsD.sBase + 4) ∧
      (0x33 : Byte) ≠ 0x00 ∧ 3 < argsD.dCap ∧ 4 ≠ 5 ∧ memOK p8 .write (argsD.dBase + 3) = true := by decide

/-- The source begins below the admitted range for the four reads, the destination for the two code writes. -/
theorem witness_RefusedFirstAccessRaisesBusError :
    (busyAt (.enc ⟨⟨0x0F, 4, 0x20, 6⟩, 0, 1, 0⟩) [] []).engineNext ∧ memOK p8 .read (0x0F + 0) = false ∧
    (busyAt (.enc ⟨⟨0x10, 255, 0x0F, 300⟩, 254, 255, 0⟩) [] []).engineNext ∧ 255 - 0 = 255 ∧
      memOK p8 .write (0x0F + 0) = false ∧
    (busyAt (.enc ⟨⟨0x10, 0, 0x0F, 6⟩, 0, 1, 0⟩) [] []).engineNext ∧
    (busyAt (.decFirst ⟨⟨0x0F, 1, 0x20, 6⟩, 0, false⟩) [] []).engineNext ∧ memOK p8 .read 0x0F = false ∧
    (busyAt (.decScan ⟨⟨0xEF, 2, 0x20, 6⟩, 1, 0, 3, 3, false⟩) [] []).engineNext ∧
      memOK p8 .read (0xEF + 1) = false ∧
    (busyAt (.enc ⟨⟨0x0F, 4, 0x20, 6⟩, 0, 1, 0⟩) [] []).fault = .none := by decide

/-- Copy at `0xF0`, zero close at `0x0F`, implied zero and data byte at `0xF0`, each past the admitted range. -/
theorem witness_RefusedWriteRaisesBusError :
    (busyAt (.enc ⟨⟨0x10, 4, 0xED, 6⟩, 3, 4, 3⟩) payloadS3 []).engineNext ∧ memOK p8 .read (0x10 + 3) = true ∧
      (busyAt (.enc ⟨⟨0x10, 4, 0xED, 6⟩, 3, 4, 3⟩) payloadS3 []).byteAt (0x10 + 3) = 0x33 ∧ 4 < 6 ∧
      memOK p8 .write (0xED + (if (0x33 : Byte) = 0x00 then 3 else 4)) = false ∧
    (busyAt (.enc ⟨⟨0x12, 1, 0x0F, 2⟩, 0, 1, 0⟩) payloadS3 []).byteAt (0x12 + 0) = 0x00 ∧
      memOK p8 .write (0x0F + (if (0x00 : Byte) = 0x00 then 0 else 1)) = false ∧
    (busyAt (.decScan ⟨⟨0x10, 6, 0xEE, 4⟩, 3, 2, 3, 3, false⟩) frameS3 []).byteAt (0x10 + 3) = 0x02 ∧
      memOK p8 .write (0xEE + 2) = false ∧
    (busyAt (.decScan ⟨⟨0x10, 6, 0xED, 4⟩, 4, 3, 5, 2, false⟩) frameS3 []).byteAt (0x10 + 4) = 0x33 ∧
      memOK p8 .write (0xED + 3) = false ∧
    (busyAt (.decScan ⟨⟨0x10, 6, 0xED, 4⟩, 4, 3, 5, 2, false⟩) frameS3 []).fault = .none := by decide

/-- The last code at `0xEF`, the terminator at `0xF0`. -/
theorem witness_RefusedTerminatorFollowsCodeWrite :
    (busyAt (.enc ⟨⟨0x10, 0, 0xEF, 2⟩, 0, 1, 0⟩) [] []).engineNext ∧
      (busyAt (.enc ⟨⟨0x10, 0, 0xEF, 2⟩, 0, 1, 0⟩) [] []).fault = .none ∧
      memOK p8 .write (0xEF + 0) = true ∧ memOK p8 .write (0xEF + 1) = false := by decide

/-- While busy, each of the four argument registers. -/
theorem witness_ArgumentWriteTakesEffect :
    ∀ x ∈ [(Reg.srcAddr, 0x08), (Reg.srcLen, 0x0C), (Reg.dstAddr, 0x10), (Reg.dstCap, 0x14)],
      (busyAt (.enc ⟨args6, 2, 3, 0⟩) payloadS3 [.regWr (p8.regBase + x.2) 4 0xFFFFFFFF]).inputs =
        .regWr ((busyAt (.enc ⟨args6, 2, 3, 0⟩) payloadS3 [.regWr (p8.regBase + x.2) 4 0xFFFFFFFF]).platform.regBase +
          x.2) 4 0xFFFFFFFF :: [] := by decide

theorem witness_ReadOnlyWriteIsIgnored :
    ∀ off ∈ [0x04, 0x18, 0x1C], (faultedAt [.regWr (0x40000000 + off) 4 7]).inputs =
      .regWr ((faultedAt [.regWr (0x40000000 + off) 4 7]).platform.regBase + off) 4 7 :: [] := by decide

theorem witness_RegisterReadReturnsFields :
    ∀ x ∈ [(Reg.cmd, 0x00), (Reg.status, 0x04), (Reg.srcAddr, 0x08), (Reg.srcLen, 0x0C), (Reg.dstAddr, 0x10),
        (Reg.dstCap, 0x14), (Reg.result, 0x18), (Reg.fault, 0x1C)],
      (faultedAt [.regRd (0x40000000 + x.2) 4]).inputs =
        .regRd ((faultedAt [.regRd (0x40000000 + x.2) 4]).platform.regBase + x.2) 4 :: [] := by decide

/-- A byte at the last address of the window, a word that straddles its base, and a misaligned word. -/
theorem witness_NonWordRegisterAccessIsRefused :
    (quiet 0 0 0 0 [.regRd 0x4000001F 1]).inputs = [.regRd 0x4000001F 1] ∧ 0x4000001F < p8.regBase + 32 ∧
      p8.regBase < 0x4000001F + 1 ∧
    (quiet 0 0 0 0 [.regWr 0x3FFFFFFE 4 1]).inputs = [.regWr 0x3FFFFFFE 4 1] ∧ 0x3FFFFFFE < p8.regBase ∧
      p8.regBase < 0x3FFFFFFE + 4 ∧
    (0x40000002 - p8.regBase) % 4 ≠ 0 := by decide

/-- The first byte of the source, and the last of the destination. -/
theorem witness_HostWriteToActiveBufferIsHazard :
    (busyAt (.enc ⟨args6, 2, 3, 0⟩) payloadS3 [.memWr 0x10 7]).busy = true ∧
      (busyAt (.enc ⟨args6, 2, 3, 0⟩) payloadS3 [.memWr 0x10 7]).engine.buffers = some args6 ∧
      0x10 < 2 ^ p8.addrW ∧ inWindow p8 0x10 = false ∧ args6.sBase ≤ 0x10 ∧ 0x10 < args6.sBase + args6.sLen ∧
    inWindow p8 0x25 = false ∧ args6.dBase ≤ 0x25 ∧ 0x25 < args6.dBase + args6.dCap := by decide

/-- The byte after the source, while busy. -/
theorem witness_HostWriteOutsideActiveBuffers :
    (busyAt (.enc ⟨args6, 2, 3, 0⟩) payloadS3 [.memWr 0x14 7]).inputs = .memWr 0x14 7 :: [] ∧ 0x14 < 2 ^ p8.addrW ∧
      inWindow p8 0x14 = false ∧ (∀ l, (Engine.enc ⟨args6, 2, 3, 0⟩).buffers = some l →
        ¬ (l.sBase ≤ 0x14 ∧ 0x14 < l.sBase + l.sLen) ∧ ¬ (l.dBase ≤ 0x14 ∧ 0x14 < l.dBase + l.dCap)) :=
  ⟨by decide, by decide, by decide, fun l h => by cases h; decide⟩

/-- The first byte of the active destination, and the byte before it. -/
theorem witness_HostReadOfMemory :
    (busyAt (.enc ⟨args6, 2, 3, 0⟩) payloadS3 [.memRd 0x20]).inputs = .memRd 0x20 :: [] ∧ 0x20 < 2 ^ p8.addrW ∧
      inWindow p8 0x20 = false ∧ args6.dBase ≤ 0x20 ∧ 0x20 < args6.dBase + args6.dCap ∧
      (∀ l, (Engine.enc ⟨args6, 2, 3, 0⟩).buffers = some l → ¬ (l.dBase ≤ 0x1F ∧ 0x1F < l.dBase + l.dCap)) :=
  ⟨by decide, by decide, by decide, by decide, by decide, fun l h => by cases h; decide⟩

/-- A reset while an ENCODE is active, one while a MINDEC is, one while faulted, and a platform's own reset on a platform
that clears memory and on one that does not, at the last byte of the destination and the one after it. -/
theorem witness_ResetEventClearsTheBlock :
    (busyAt (.size .mindec ⟨0, 2, 0, 0⟩) [] [.reset]).inputs = .reset :: [] ∧
      (busyAt (.size .mindec ⟨0, 2, 0, 0⟩) [] [.reset]).engine.buffers = none ∧
    (clearing [.platformReset]).inputs = .platformReset :: [] ∧
      (clearing [.platformReset]).platform.resetClearsMemory = true ∧
      (clearing [.platformReset]).engine.buffers = some args6 ∧ 0x25 < args6.dBase + args6.dCap ∧
      ¬ (args6.dBase ≤ 0x26 ∧ 0x26 < args6.dBase + args6.dCap) ∧
    (faultedAt [.platformReset]).inputs = .platformReset :: [] ∧
      (faultedAt [.platformReset]).platform.resetClearsMemory = false ∧
    (busyAt (.enc ⟨args6, 2, 3, 0⟩) payloadS3 [.reset]).inputs = .reset :: [] ∧
      (busyAt (.enc ⟨args6, 2, 3, 0⟩) payloadS3 [.reset]).engine.buffers = some args6 ∧
      (faultedAt [.reset]).inputs = .reset :: [] ∧ (faultedAt [.reset]).engine.buffers = none := by decide

/-- The invariant holds of a block in the middle of an ENCODE. -/
theorem witness_inv_encode : (busyAt (.enc ⟨args6, 2, 3, 0⟩) payloadS3 []).Inv where
  platformWf := by decide
  memCanonical := by decide
  cellsExist := by decide
  drawnExist := by decide
  argsFit := by decide
  resultFits := by decide
  busyIff := by decide
  notBusyAndDone := by decide
  faultQuiet := by decide
  resultDone := by decide
  engineRanges := ⟨by decide, by decide, by decide, by decide, by decide⟩

/-- The invariant holds of a block in the middle of a DECODE. -/
theorem witness_inv_decode : (busyAt (.decScan ⟨argsD, 3, 2, 3, 3, false⟩) frameS3 []).Inv where
  platformWf := by decide
  memCanonical := by decide
  cellsExist := by decide
  drawnExist := by decide
  argsFit := by decide
  resultFits := by decide
  busyIff := by decide
  notBusyAndDone := by decide
  faultQuiet := by decide
  resultDone := by decide
  engineRanges := ⟨by decide, by decide, by decide, by decide, by decide, by decide, by decide⟩

/-- For EveryStepKeepsTheInvariant, EngineAccessesStayInBounds and EngineChangesOnlyTheDestination, beside the two
above. -/
theorem witness_engine_step :
    (busyAt (.enc ⟨args6, 2, 3, 0⟩) payloadS3 []).engineNext ∧
      (busyAt (.enc ⟨args6, 2, 3, 0⟩) payloadS3 []).engine.buffers = some args6 ∧
      ∃ t, step (busyAt (.enc ⟨args6, 2, 3, 0⟩) payloadS3 []) = .next t :=
  ⟨by decide, by decide, ⟨_, rfl⟩⟩

/-- For EngineChangesOnlyTheDestination and EngineAccessesStayInBounds: a MINENC that finishes with 0, with no
buffers. -/
theorem witness_engine_step_sizing :
    (busyAt (.size .minenc ⟨0, 0xFE, 0, 0⟩) [] []).engineNext ∧
      (busyAt (.size .minenc ⟨0, 0xFE, 0, 0⟩) [] []).engine.buffers = none ∧
      (busyAt (.size .minenc ⟨0, 0xFE, 0, 0⟩) [] []).Inv :=
  ⟨by decide, by decide, ⟨by decide, by decide, by decide, by decide, by decide, by decide, by decide,
    by decide, by decide, by decide, ⟨by decide, by decide, by decide, by decide⟩⟩⟩

/-- For FaultStaysUntilReset: a faulted block whose next step is a CMD write. -/
theorem witness_FaultStaysUntilReset :
    (faultedAt (cmdNext 3)).fault ≠ .none ∧ (faultedAt (cmdNext 3)).inputs.head? ≠ some .reset ∧
      (faultedAt (cmdNext 3)).inputs.head? ≠ some .platformReset ∧ (∃ t, step (faultedAt (cmdNext 3)) = .next t) ∧ (faultedAt (cmdNext 3)).Inv :=
  ⟨by decide, by decide, by decide, ⟨_, rfl⟩, ⟨by decide, by decide, by decide, by decide, by decide, by decide, by decide,
    by decide, by decide, by decide, trivial⟩⟩

/-- For OnlyHostWritesChangeArguments: a CMD write, and the engine's turn. -/
theorem witness_OnlyHostWritesChangeArguments :
    (∃ t, step (quiet 0x10 4 0x20 6 (cmdNext 1)) = .next t) ∧
      (quiet 0x10 4 0x20 6 (cmdNext 1)).inputs.head? = some (.regWr 0x40000000 4 1) ∧
      regAt p8 0x40000000 4 = some .cmd ∧
      (∃ t, step (busyAt (.enc ⟨args6, 2, 3, 0⟩) payloadS3 []) = .next t) :=
  ⟨⟨_, rfl⟩, by decide, by decide, ⟨_, rfl⟩⟩

theorem witness_RegisterWriteCommutesWithEngineStep :
    Reg.srcLen ≠ .cmd ∧ ∃ t, regWrite .srcLen 9 (busyAt (.enc ⟨args6, 2, 3, 0⟩) payloadS3 []) = .next t :=
  ⟨by decide, ⟨_, rfl⟩⟩

/-- Two states with other arguments, another destination byte and another byte outside. -/
theorem witness_EngineStepDependsOnSourceOnly :
    SameFlags (busyAt (.enc ⟨args6, 2, 3, 0⟩) payloadS3 [])
      { busyAt (.enc ⟨args6, 2, 3, 0⟩) (payloadS3 ++ [(0x20, 9), (0x80, 9)]) [] with srcLen := 5 } ∧
    ∀ k < args6.sLen, Memory.get (payloadS3 ++ [(0x20, 9), (0x80, 9)]) (args6.sBase + k) =
      Memory.get payloadS3 (args6.sBase + k) :=
  ⟨⟨rfl, rfl, rfl, rfl⟩, by decide⟩

/-- For EncodeRunComputesEncodeFn and DecodeRunComputesDecodeFn. -/
theorem witness_runs :
    p8.wf = true ∧ (quiet 0x10 4 0x20 6 []).inputs = [] ∧ (quiet 0x10 4 0x20 6 []).fault = .none ∧
      (quiet 0x10 4 0x20 6 []).busy = false ∧ args6 = (quiet 0x10 4 0x20 6 []).latch ∧
      bufferFault p8 args6 = none ∧ args6.admitted p8 := by decide

theorem witness_AcceptedCommandEndsWithinBound :
    (quiet 0x10 4 0x20 6 []).inputs = [] ∧ (quiet 0x10 4 0x20 6 []).busy = false ∧
      next (exec .encode (quiet 0x10 4 0x20 6 [])) (fun t => t.busy) = true ∧
      next (exec .decode (quiet 0x10 4 0x20 6 [])) (fun t => t.busy) = true ∧
      next (exec .minenc (quiet 0x10 4 0x20 6 [])) (fun t => t.busy) = true ∧
      next (exec .mindec (quiet 0x10 4 0x20 6 [])) (fun t => t.busy) = true := by decide

/-- Both clauses, with a field that holds the value and one that does not, and an accepted command before a POLL. -/
theorem witness_PollEndsWhenTheFieldMatches :
    (faultedAt [.poll .code 2 []]).inputs = .poll .code 2 [] :: [] ∧
      fieldValue p8 .code (readReg .fault (faultedAt [.poll .code 2 []])) = 2 ∧
      fieldValue p8 .busy (readReg .status (clearing [.poll .busy 0 []])) ≠ 0 ∧
    (quiet 0x10 4 0x20 6 [.poll .busy 0 []]).inputs = [.poll .busy 0 []] ∧
      (quiet 0x10 4 0x20 6 [.poll .busy 0 []]).busy = false ∧
      next (exec .encode (quiet 0x10 4 0x20 6 [.poll .busy 0 []])) (fun t => t.busy) = true := by decide

/-- For EncodeResultIsFrameLength and DecodeOfEncodeIsThePayload: both sides of the frame length 6 of S3's payload. -/
theorem witness_EncodeResultIsFrameLength :
    frameLength [0x11, 0x22, 0x00, 0x33] = 6 ∧ 6 ≥ frameLength [0x11, 0x22, 0x00, 0x33] ∧
      ¬ 5 ≥ frameLength [0x11, 0x22, 0x00, 0x33] ∧ [0x11, 0x22, 0x00, 0x33].length ≤ 4 := by decide

/-- An accepted buffer with its capacity checks, one byte less of capacity, and a buffer of another shape. -/
theorem witness_DecodeAcceptanceCondition :
    AcceptedShape [0x03, 0x11, 0x22, 0x02, 0x33, 0x00] ∧
      (∀ k ≤ 4, 1 ≤ k → emittedBefore [0x03, 0x11, 0x22, 0x02, 0x33, 0x00] k < 4) ∧
      ¬ emittedBefore [0x03, 0x11, 0x22, 0x02, 0x33, 0x00] 4 < 3 ∧ ¬ AcceptedShape [0x03, 0x00, 0x22, 0x00] := by
  decide

theorem witness_DecodeCapacitySuffices : minDecodedSize [0x01, 0x11, 0x00].length ≤ 1 := by decide

/-- The buffer `01 00` at the lower bound, and S3's frame. -/
theorem witness_CorruptionToZeroDetection :
    AcceptedShape [0x01, 0x00] ∧ AcceptedShape [0x03, 0x11, 0x22, 0x02, 0x33, 0x00] ∧ 1 ≤ 4 ∧ 4 + 2 ≤ 6 := by decide

theorem witness_MinencIsTheWorstCase :
    minEncodedSize [0x11, 0x22, 0x00, 0x33].length ≤ 6 ∧ ∀ b ∈ [(0x11 : Byte), 0x22], b ≠ 0x00 := by decide

/-- The three widths have a platform each. -/
theorem witness_MinencOverflowBoundary :
    p8.addrW = 8 ∧ fullState.platform.addrW = 16 ∧ defaultPlatform.addrW = 32 := by decide

end Sys2Proof.Tests
end

section
/-! SUPPORT. The argument registers taken together, and everything a CMD write and an event of the interleaving can
do. -/

namespace Sys2Proof.Machine

open Sys2Proof Config

/-! ### The argument registers (10_state.md R23 to R26, R29) -/

/-- The four argument registers. -/
structure ArgRegs where
  srcAddr : Word
  srcLen  : Word
  dstAddr : Word
  dstCap  : Word

/-- The argument registers of a state. -/
def State.args (s : State) : ArgRegs := ⟨s.srcAddr, s.srcLen, s.dstAddr, s.dstCap⟩

/-- A state with other argument registers. -/
def State.withArgs (s : State) (x : ArgRegs) : State :=
  { s with srcAddr := x.srcAddr, srcLen := x.srcLen, dstAddr := x.dstAddr, dstCap := x.dstCap }

/-- The argument registers after the word `w` is put into a register; the other four registers are none of them. -/
def ArgRegs.put (x : ArgRegs) (r : Reg) (w : Word) : ArgRegs :=
  match r with
  | .srcAddr => { x with srcAddr := w }
  | .srcLen => { x with srcLen := w }
  | .dstAddr => { x with dstAddr := w }
  | .dstCap => { x with dstCap := w }
  | .cmd => x
  | .status => x
  | .result => x
  | .fault => x

/-- The argument registers are zero above bit `ADDR_W - 1`. -/
def ArgRegs.fits (p : Platform) (x : ArgRegs) : Prop :=
  x.srcAddr.toNat < memSize p ∧ x.srcLen.toNat < memSize p ∧ x.dstAddr.toNat < memSize p ∧
    x.dstCap.toNat < memSize p

@[simp] theorem State.withArgs_platform (s : State) (x : ArgRegs) : (s.withArgs x).platform = s.platform := rfl
@[simp] theorem State.withArgs_engine (s : State) (x : ArgRegs) : (s.withArgs x).engine = s.engine := rfl
@[simp] theorem State.byteAt_withArgs (s : State) (x : ArgRegs) (a : Nat) :
    (s.withArgs x).byteAt a = s.byteAt a := rfl

theorem ArgRegs.put_eq_self {r : Reg} (h : r ≠ .srcAddr ∧ r ≠ .srcLen ∧ r ≠ .dstAddr ∧ r ≠ .dstCap)
    (x : ArgRegs) (w : Word) : x.put r w = x := by
  cases r <;> simp_all [ArgRegs.put]

theorem ArgRegs.fits_put {p : Platform} {x : ArgRegs} (h : x.fits p) (r : Reg) (v : Word) :
    (x.put r (fieldWord p v)).fits p := by
  have hv : (fieldWord p v).toNat < memSize p := by rw [toNat_fieldWord]; exact fieldNat_lt p v
  obtain ⟨h1, h2, h3, h4⟩ := h
  cases r <;> exact ⟨by assumption, by assumption, by assumption, by assumption⟩

/-- A register write other than to CMD changes the argument registers alone (40_command_issue.md R100). -/
theorem regWrite_of_ne_cmd {r : Reg} (h : r ≠ .cmd) (v : Word) (s : State) :
    regWrite r v s = .next (s.withArgs (s.args.put r (fieldWord s.platform v))) := by
  cases r with
  | cmd => exact absurd rfl h
  | _ => rfl

/-! ### Issue (40_command_issue.md section 2) -/

/-- What a CMD write leaves of a state: it is ignored, it raises a fault, or the engine starts in a state that is
active and in its ranges. -/
inductive IssueEffect (s : State) : State → Prop where
  | ignored (h : s.takesCommand = false) : IssueEffect s s
  | faulted (h : s.takesCommand = true) (c : FaultCode) : IssueEffect s (s.raiseFault c)
  | started (h : s.takesCommand = true) (e : Engine) (active : e ≠ .idle) (ranges : e.inRanges s.platform) :
      IssueEffect s (s.clearResult.start e)

theorem State.latch_fits (s : State) : s.latch.fits s.platform :=
  ⟨fieldNat_lt _ _, fieldNat_lt _ _, fieldNat_lt _ _, fieldNat_lt _ _⟩

theorem encoderInit_inRanges {p : Platform} {l : Latched} (h : l.checked p) : (encoderInit l).inRanges p :=
  ⟨h, by dsimp only; omega⟩

theorem decoderInit_inRanges {p : Platform} {l : Latched} (h : l.checked p) : (decoderInit l).inRanges p :=
  ⟨h, rfl, rfl⟩

theorem issueBuffers_effect (init : Latched → Engine) (s : State) (hactive : ∀ l, init l ≠ .idle)
    (hranges : ∀ {p l}, Latched.checked p l → (init l).inRanges p) : IssueEffect s (issueBuffers init s) := by
  rcases issueBuffers_cases init s with ⟨h, heq⟩ | ⟨h, c, -, heq⟩ | ⟨h, hc, heq⟩ <;> rw [heq]
  · exact .ignored h
  · exact .faulted h c
  · exact .started h _ (hactive _) (hranges ⟨s.latch_fits, hc⟩)

theorem issueSizing_effect (op : Sizing) (s : State) : IssueEffect s (issueSizing op s) := by
  rcases issueSizing_cases op s with ⟨h, heq⟩ | ⟨h, heq⟩ <;> rw [heq]
  · exact .ignored h
  · exact .started h _ (by simp) s.latch_fits

theorem issueIllegal_effect (s : State) : IssueEffect s (issueIllegal s) := by
  rcases issueIllegal_cases s with ⟨h, heq⟩ | ⟨h, heq⟩ <;> rw [heq]
  · exact .ignored h
  · exact .faulted h _

theorem exec_effect {i : Instr} {s t : State} (h : exec i s = .next t) : IssueEffect s t := by
  cases i <;> cases h
  · exact issueBuffers_effect encoderInit s (fun _ => by simp [encoderInit]) encoderInit_inRanges
  · exact issueBuffers_effect decoderInit s (fun _ => by simp [decoderInit]) decoderInit_inRanges
  · exact issueSizing_effect .minenc s
  · exact issueSizing_effect .mindec s

theorem cmdWrite_effect {v : Word} {s t : State} (h : cmdWrite v s = .next t) : IssueEffect s t := by
  unfold cmdWrite at h
  split at h
  · exact exec_effect h
  · cases h; exact issueIllegal_effect s

/-- A faulted or busy block ignores a CMD write (R102, R103). -/
theorem IssueEffect.eq_self {s t : State} (h : IssueEffect s t) (hs : s.takesCommand = false) : t = s := by
  cases h with
  | ignored _ => rfl
  | faulted ht _ => simp [hs] at ht
  | started ht _ _ _ => simp [hs] at ht

theorem IssueEffect.sameHostSide {s t : State} (h : IssueEffect s t) : SameHostSide s t := by
  cases h <;> exact ⟨rfl, rfl, rfl, rfl, rfl, rfl⟩

/-- A CMD write makes no access and leaves memory and the coming events (R109). -/
theorem IssueEffect.mem_frame {s t : State} (h : IssueEffect s t) :
    t.mem = s.mem ∧ t.drawn = s.drawn ∧ t.draws = s.draws ∧ t.trace = s.trace ∧ t.inputs = s.inputs := by
  cases h <;> exact ⟨rfl, rfl, rfl, rfl, rfl⟩

/-- FAULT is written only while it is 0, and then the engine is left IDLE (10_state.md R28, 60_exceptions.md R210). -/
theorem IssueEffect.fault_cases {s t : State} (h : IssueEffect s t) :
    t.fault = s.fault ∨ s.fault = .none ∧ t.engine = .idle := by
  cases h with
  | ignored _ => exact .inl rfl
  | faulted ht _ => exact .inr ⟨(s.takesCommand_iff.1 ht).1, rfl⟩
  | started _ _ _ _ => exact .inl rfl

/-! ### One event of the interleaving (20_memory.md R60) -/

/-- What an admitted event leaves of a state. -/
inductive EventEffect (s : State) : Event → State → Prop where
  | cmdWrite {addr size : Nat} {v : Word} {t : State} (hr : regAt s.platform addr size = some .cmd)
      (h : IssueEffect s t) : EventEffect s (.regWr addr size v) t
  | regWrite {addr size : Nat} {v : Word} {r : Reg} (hr : regAt s.platform addr size = some r) (hne : r ≠ .cmd) :
      EventEffect s (.regWr addr size v) (s.withArgs (s.args.put r (fieldWord s.platform v)))
  | regRead {addr size : Nat} {r : Reg} (hr : regAt s.platform addr size = some r) :
      EventEffect s (.regRd addr size) (s.reply (.reg r (readReg r s)))
  | memWrite {a : Nat} {b : Byte} (ha : a < memSize s.platform) : EventEffect s (.memWr a b) (s.setByte a b)
  | memRead {a : Nat} : EventEffect s (.memRd a) (s.reply (.mem a (s.byteAt a)))
  | memReadDrawn {a : Nat} :
      EventEffect s (.memRd a) { s.reply (.mem a (freeByte s.draws a)) with draws := s.draws + 1 }
  | poll {f : RegField} {v : Nat} {gaps : List Nat} : EventEffect s (.poll f v gaps) (hostPollRead f v gaps s)
  | reset : EventEffect s .reset s.resetBlock
  | platformReset : EventEffect s .platformReset s.resetPlatform
  | engine : EventEffect s .engine (engineTurn s)

theorem regWrite_effect {addr size : Nat} {v : Word} {r : Reg} {s t : State}
    (hr : regAt s.platform addr size = some r) (h : regWrite r v s = .next t) :
    EventEffect s (.regWr addr size v) t := by
  by_cases hc : r = .cmd
  · subst hc; exact .cmdWrite hr (cmdWrite_effect h)
  · rw [regWrite_of_ne_cmd hc] at h
    cases h; exact .regWrite hr hc

theorem hostMemWrite_effect {a : Nat} {b : Byte} {s t : State} (h : hostMemWrite a b s = .next t) :
    EventEffect s (.memWr a b) t := by
  unfold hostMemWrite at h
  split_ifs at h with ha
  cases h; exact .memWrite (by omega)

theorem hostMemRead_effect {a : Nat} {s t : State} (h : hostMemRead a s = .next t) :
    EventEffect s (.memRd a) t := by
  unfold hostMemRead at h
  split_ifs at h
  · cases h; exact .memReadDrawn
  · cases h; exact .memRead

theorem takeEvent_effect {e : Event} {s t : State} (h : takeEvent e s = .next t) : EventEffect s e t := by
  cases e with
  | regWr addr size v =>
    cases hr : regAt s.platform addr size with
    | none => simp [takeEvent, hr] at h
    | some r => exact regWrite_effect hr (by simpa [takeEvent, hr] using h)
  | regRd addr size =>
    cases hr : regAt s.platform addr size with
    | none => simp [takeEvent, hr] at h
    | some r =>
      have ht : s.reply (.reg r (readReg r s)) = t := by simpa [takeEvent, hr] using h
      exact ht ▸ .regRead hr
  | memWr a b => exact hostMemWrite_effect h
  | memRd a => exact hostMemRead_effect h
  | poll f v gaps => cases h; exact .poll
  | reset => cases h; exact .reset
  | platformReset => cases h; exact .platformReset
  | engine => cases h; exact .engine

/-- A step is the engine's turn with no event left, or takes the first event. -/
theorem step_effect {s t : State} (h : step s = .next t) :
    (s.inputs = [] ∧ t = engineTurn s) ∨
    ∃ e rest, s.inputs = e :: rest ∧ EventEffect (s.withInputs rest) e t := by
  cases hi : s.inputs with
  | nil =>
    rw [step_of_no_inputs hi] at h
    cases h; exact .inl ⟨rfl, rfl⟩
  | cons e rest =>
    rw [step_of_event hi] at h
    exact .inr ⟨e, rest, rfl, takeEvent_effect h⟩

end Sys2Proof.Machine
end

section
/-! PROOFS. What an engine turn leaves of the host's side, and that it does not read the argument registers. -/

namespace Sys2Proof.Machine

open Sys2Proof Config

/-! ### The host's side -/

theorem SameHostSide.refl (s : State) : SameHostSide s s := ⟨rfl, rfl, rfl, rfl, rfl, rfl⟩

theorem SameHostSide.trans {s t u : State} (h : SameHostSide s t) (h' : SameHostSide t u) : SameHostSide s u := by
  obtain ⟨h1, h2, h3, h4, h5, h6⟩ := h
  obtain ⟨h1', h2', h3', h4', h5', h6'⟩ := h'
  exact ⟨h1'.trans h1, h2'.trans h2, h3'.trans h3, h4'.trans h4, h5'.trans h5, h6'.trans h6⟩

theorem SameHostSide.args_eq {s t : State} (h : SameHostSide s t) : t.args = s.args := by
  obtain ⟨-, h1, h2, h3, h4, -⟩ := h
  simp [State.args, h1, h2, h3, h4]

/-! ### Operations of the engine's side -/

/-- An operation that writes nothing of the host's side and reads none of the argument registers. -/
structure HostBlind (f : State → State) : Prop where
  frame : ∀ s, SameHostSide s (f s)
  commutes : ∀ s x, f (s.withArgs x) = (f s).withArgs x

theorem HostBlind.ite {c : Prop} [Decidable c] {f g : State → State} (hf : HostBlind f) (hg : HostBlind g) :
    HostBlind fun s => if c then f s else g s := by
  split_ifs
  · exact hf
  · exact hg

theorem hostBlind_setEngine (e : Engine) : HostBlind fun s => s.setEngine e where
  frame := SameHostSide.refl
  commutes _ _ := rfl

theorem hostBlind_finish (v : Nat) : HostBlind fun s => s.finish v where
  frame := SameHostSide.refl
  commutes _ _ := rfl

theorem State.drawBytes_withArgs (s : State) (x : ArgRegs) (base size : Nat) :
    (s.withArgs x).drawBytes base size = (s.drawBytes base size).withArgs x := by
  unfold State.drawBytes
  split_ifs <;> rfl

theorem hostBlind_finishBuffers (l : Latched) (v : Nat) : HostBlind fun s => s.finishBuffers l v where
  frame s := by simp [SameHostSide]
  commutes s x := by
    unfold State.finishBuffers
    split_ifs
    · exact State.drawBytes_withArgs (s.finish 0) x _ _
    · rfl

theorem hostBlind_busError (l : Latched) : HostBlind fun s => s.busError l where
  frame s := by simp [SameHostSide]
  commutes s x := State.drawBytes_withArgs (s.raiseFault .busError) x _ _

theorem hostBlind_memRead (l : Latched) (a : Nat) {rest : Byte → State → State} (h : ∀ b, HostBlind (rest b)) :
    HostBlind fun s => s.memRead l a rest where
  frame s := by
    rcases s.memRead_cases l a rest with ⟨-, heq⟩ | ⟨-, heq⟩ <;> rw [heq]
    · exact (h _).frame (s.logAccess .read a (s.byteAt a))
    · exact (hostBlind_busError l).frame s
  commutes s x := by
    unfold State.memRead
    rw [State.withArgs_platform, State.byteAt_withArgs]
    split_ifs
    · exact (h _).commutes (s.logAccess .read a (s.byteAt a)) x
    · exact (hostBlind_busError l).commutes s x

theorem hostBlind_memWrite (l : Latched) (a : Nat) (b : Byte) {rest : State → State} (h : HostBlind rest) :
    HostBlind fun s => s.memWrite l a b rest where
  frame s := by
    rcases s.memWrite_cases l a b rest with ⟨-, heq⟩ | ⟨-, heq⟩ <;> rw [heq]
    · exact h.frame ((s.setByte a b).logAccess .write a b)
    · exact (hostBlind_busError l).frame s
  commutes s x := by
    unfold State.memWrite
    rw [State.withArgs_platform]
    split_ifs
    · exact h.commutes ((s.setByte a b).logAccess .write a b) x
    · exact (hostBlind_busError l).commutes s x

/-! ### The engine's turn -/

theorem encFinal_hostBlind (r : EncRegs) : HostBlind (encFinal r) :=
  .ite (hostBlind_finishBuffers _ _)
    (hostBlind_memWrite _ _ _ (hostBlind_memWrite _ _ _ (hostBlind_finishBuffers _ _)))

theorem encStep_hostBlind (r : EncRegs) : HostBlind (encStep r) :=
  .ite
    (.ite (hostBlind_finishBuffers _ _)
      (.ite (hostBlind_memWrite _ _ _ (hostBlind_setEngine _))
        (hostBlind_memRead _ _ fun _ =>
          .ite (hostBlind_memWrite _ _ _ (hostBlind_setEngine _)) (hostBlind_memWrite _ _ _ (hostBlind_setEngine _)))))
    (encFinal_hostBlind r)

theorem decFirstStep_hostBlind (r : FirstRegs) : HostBlind (decFirstStep r) :=
  .ite (hostBlind_finishBuffers _ _) (hostBlind_memRead _ _ fun _ => hostBlind_setEngine _)

theorem decTerminator_hostBlind (r : ScanRegs) : HostBlind (decTerminator r) :=
  .ite (hostBlind_finishBuffers _ _) (hostBlind_finishBuffers _ _)

theorem decCode_hostBlind (r : ScanRegs) (b : Byte) : HostBlind (decCode r b) :=
  .ite (hostBlind_memWrite _ _ _ (hostBlind_setEngine _)) (hostBlind_setEngine _)

theorem decScanStep_hostBlind (r : ScanRegs) : HostBlind (decScanStep r) :=
  .ite
    (hostBlind_memRead _ _ fun b =>
      .ite (decTerminator_hostBlind r)
        (.ite (hostBlind_finishBuffers _ _)
          (.ite (decCode_hostBlind r b) (hostBlind_memWrite _ _ _ (hostBlind_setEngine _)))))
    (hostBlind_finishBuffers _ _)

theorem sizeStep_hostBlind (op : Sizing) (l : Latched) : HostBlind (sizeStep op l) where
  frame _ := by cases op <;> exact SameHostSide.refl _
  commutes _ _ := by cases op <;> rfl

/-- In every state the engine's turn is one of the operations of the engine's side, whatever the argument registers
hold. -/
theorem engineTurn_eq_hostBlind (s : State) :
    ∃ f, HostBlind f ∧ ∀ u : State, u.engine = s.engine → engineTurn u = f u := by
  cases he : s.engine with
  | idle => exact ⟨id, ⟨SameHostSide.refl, fun _ _ => rfl⟩, fun _ => engineTurn_idle⟩
  | enc r => exact ⟨encStep r, encStep_hostBlind r, fun _ => engineTurn_enc⟩
  | decFirst r => exact ⟨decFirstStep r, decFirstStep_hostBlind r, fun _ => engineTurn_decFirst⟩
  | decScan r => exact ⟨decScanStep r, decScanStep_hostBlind r, fun _ => engineTurn_decScan⟩
  | size op l => exact ⟨sizeStep op l, sizeStep_hostBlind op l, fun _ => engineTurn_size⟩

theorem engineTurn_hostBlind : HostBlind engineTurn where
  frame s := by
    obtain ⟨f, hf, heq⟩ := engineTurn_eq_hostBlind s
    rw [heq s rfl]
    exact hf.frame s
  commutes s x := by
    obtain ⟨f, hf, heq⟩ := engineTurn_eq_hostBlind s
    rw [heq s rfl, heq (s.withArgs x) rfl]
    exact hf.commutes s x

/-! ### What an event other than a reset leaves -/

/-- Every event but a reset and a register write keeps the argument registers, and so does a write to another
register. -/
theorem EventEffect.args_eq {e : Event} {s t : State} (h : EventEffect s e t) (hreset : e ≠ .reset)
    (hplatform : e ≠ .platformReset)
    (hwrite : ∀ addr size v r, e = .regWr addr size v → regAt s.platform addr size = some r →
      r ≠ .srcAddr ∧ r ≠ .srcLen ∧ r ≠ .dstAddr ∧ r ≠ .dstCap) : t.args = s.args := by
  cases h with
  | cmdWrite _ h => exact h.sameHostSide.args_eq
  | regWrite hr _ => exact ArgRegs.put_eq_self (hwrite _ _ _ _ rfl hr) _ _
  | reset => exact absurd rfl hreset
  | platformReset => exact absurd rfl hplatform
  | engine => exact (engineTurn_hostBlind.frame s).args_eq
  | _ => rfl

/-- While the block is faulted and IDLE, an event other than a reset changes no flag, starts nothing and makes no
access (60_exceptions.md R211). -/
theorem EventEffect.faulted_frame {e : Event} {s t : State} (h : EventEffect s e t) (hfault : s.fault ≠ .none)
    (hidle : s.engine = .idle) (hreset : e ≠ .reset) (hplatform : e ≠ .platformReset) :
    SameFlags s t ∧ t.engine = s.engine ∧ t.trace = s.trace := by
  cases h with
  | cmdWrite _ h =>
    have ht : s.takesCommand = false := by simp [State.takesCommand, hfault]
    rw [h.eq_self ht]
    exact ⟨⟨rfl, rfl, rfl, rfl⟩, rfl, rfl⟩
  | reset => exact absurd rfl hreset
  | platformReset => exact absurd rfl hplatform
  | engine =>
    rw [engineTurn_idle hidle]
    exact ⟨⟨rfl, rfl, rfl, rfl⟩, rfl, rfl⟩
  | _ => exact ⟨⟨rfl, rfl, rfl, rfl⟩, rfl, rfl⟩

end Sys2Proof.Machine
end

section
/-! PROOFS. The machine's invariant: one rule for each operation on the state, then the engine's turn, issue and the
events. -/

namespace Sys2Proof.Machine

open Sys2Proof Config

/-! ### The operations of the host's side -/

theorem State.Inv.withInputs {s : State} (h : s.Inv) (x : List Event) : (s.withInputs x).Inv := { h with }

theorem State.Inv.reply {s : State} (h : s.Inv) (x : Reply) : (s.reply x).Inv := { h with }

theorem State.Inv.logAccess {s : State} (h : s.Inv) (k : AccessKind) (a : Nat) (b : Byte) :
    (s.logAccess k a b).Inv := { h with }

theorem State.Inv.withArgs {s : State} (h : s.Inv) {x : ArgRegs} (hx : x.fits s.platform) : (s.withArgs x).Inv :=
  { h with argsFit := hx }

/-- Counting a draw that memory does not hold keeps the invariant. -/
theorem State.Inv.countDraw {s : State} (h : s.Inv) : State.Inv { s with draws := s.draws + 1 } :=
  { h with
    drawnExist := fun d hd => by
      obtain ⟨hsize, hdraw⟩ := h.drawnExist d hd
      exact ⟨hsize, Nat.lt_succ_of_lt hdraw⟩ }

/-! ### Data memory -/

theorem Drawn.exist_carve {ds : List Drawn} {m n : Nat} (h : ∀ d ∈ ds, d.base + d.size ≤ m ∧ d.draw < n)
    (base size : Nat) : ∀ d ∈ Drawn.carve ds base size, d.base + d.size ≤ m ∧ d.draw < n := by
  intro d hd
  obtain ⟨d', hd', -, hle, hdraw⟩ := Drawn.mem_carve hd
  obtain ⟨hsize, hlt⟩ := h d' hd'
  exact ⟨hle.trans hsize, hdraw ▸ hlt⟩

theorem State.Inv.setByte {s : State} (h : s.Inv) {a : Nat} (ha : a < memSize s.platform) (b : Byte) :
    (s.setByte a b).Inv :=
  { h with
    memCanonical := State.memWf_setByte s a b h.memCanonical
    cellsExist := fun cell hc => by
      rcases Memory.mem_set hc with hcell | hcell
      · exact hcell ▸ ha
      · exact h.cellsExist cell hcell
    drawnExist := Drawn.exist_carve h.drawnExist a 1 }

theorem State.Inv.drawBytes {s : State} (h : s.Inv) {base size : Nat} (hle : base + size ≤ memSize s.platform) :
    (s.drawBytes base size).Inv := by
  have hwf := State.memWf_drawBytes s base size h.memCanonical
  unfold State.drawBytes at hwf ⊢
  split_ifs at hwf ⊢ with hsize
  · exact h
  · exact
      { h with
        memCanonical := hwf
        cellsExist := fun cell hc => h.cellsExist cell (Memory.mem_clear.1 hc).1
        drawnExist := fun d hd => by
          rcases Drawn.mem_insert hd with rfl | hd
          · exact ⟨hle, Nat.lt_succ_self _⟩
          · exact Drawn.exist_carve h.countDraw.drawnExist base size d hd }

theorem State.Inv.clearMemory {s : State} (h : s.Inv) : s.clearMemory.Inv :=
  { h with
    memCanonical := s.memWf_clearMemory
    cellsExist := fun _ hc => absurd hc List.not_mem_nil
    drawnExist := fun _ hd => absurd hd List.not_mem_nil }

/-! ### Completion, faults and the start of a command -/

theorem State.Inv.finish {s : State} (h : s.Inv) (hfault : s.fault = .none) {v : Nat} (hv : v < memSize s.platform) :
    (s.finish v).Inv :=
  { h with
    resultFits := Nat.lt_of_le_of_lt (Nat.mod_le _ _) hv
    busyIff := by simp
    notBusyAndDone := by simp
    faultQuiet := fun hf => absurd hfault hf
    resultDone := fun _ => rfl
    engineRanges := trivial }

theorem State.Inv.raiseFault {s : State} (h : s.Inv) (c : FaultCode) : (s.raiseFault c).Inv :=
  { h with
    resultFits := memSize_pos _
    busyIff := by simp
    notBusyAndDone := by simp
    faultQuiet := fun _ => ⟨rfl, rfl, rfl⟩
    resultDone := fun hr => absurd rfl hr
    engineRanges := trivial }

theorem State.Inv.start {s : State} (h : s.Inv) (hfault : s.fault = .none) {e : Engine} (active : e ≠ .idle)
    (ranges : e.inRanges s.platform) : (s.clearResult.start e).Inv :=
  { h with
    resultFits := memSize_pos _
    busyIff := by simp [active]
    notBusyAndDone := by simp
    faultQuiet := fun hf => absurd hfault hf
    resultDone := fun hr => absurd rfl hr
    engineRanges := ranges }

theorem State.Inv.resetRegs {s : State} (h : s.Inv) : s.resetRegs.Inv :=
  { h with
    argsFit := ⟨memSize_pos _, memSize_pos _, memSize_pos _, memSize_pos _⟩
    resultFits := memSize_pos _
    busyIff := by simp
    notBusyAndDone := by simp
    faultQuiet := fun hf => absurd rfl hf
    resultDone := fun hr => absurd rfl hr
    engineRanges := trivial }

theorem IssueEffect.inv {s t : State} (h : IssueEffect s t) (hs : s.Inv) : t.Inv := by
  cases h with
  | ignored _ => exact hs
  | faulted _ c => exact hs.raiseFault c
  | started ht _ active ranges => exact hs.start (s.takesCommand_iff.1 ht).1 active ranges

/-! ### Reset -/

/-- The buffers of an active command passed the checks of its issue. -/
theorem Engine.checked_of_buffers {p : Platform} {e : Engine} (h : e.inRanges p) {l : Latched}
    (hl : e.buffers = some l) : l.checked p := by
  cases e with
  | idle => cases hl
  | enc r => cases hl; exact h.1
  | decFirst r => cases hl; exact h.1
  | decScan r => cases hl; exact h.1
  | size op l => cases hl

theorem Latched.checked.dest_le {p : Platform} {l : Latched} (h : l.checked p) : l.dBase + l.dCap ≤ memSize p := by
  have hwrap := ((bufferFault_eq_none_iff p l).1 h.2).2.1
  have := mt (wrapsAround_iff p l).2 (by simp [hwrap])
  omega

theorem State.Inv.resetBlock {s : State} (h : s.Inv) : s.resetBlock.Inv := by
  unfold State.resetBlock
  split
  · next l hl => exact h.resetRegs.drawBytes (Engine.checked_of_buffers h.engineRanges hl).dest_le
  · exact h.resetRegs

theorem State.Inv.resetPlatform {s : State} (h : s.Inv) : s.resetPlatform.Inv := by
  unfold State.resetPlatform
  split
  · exact h.clearMemory.resetBlock
  · exact h.resetBlock

/-! ### The engine's turn -/

/-- The invariant in the course of an engine step: the engine is still active. -/
structure State.ActiveInv (p : Platform) (s : State) : Prop where
  inv : s.Inv
  platform_eq : s.platform = p
  active : s.engine ≠ .idle

section ActiveInv

variable {p : Platform} {s : State} {l : Latched}

theorem State.Inv.engine_idle_of_fault (h : s.Inv) (hfault : s.fault ≠ .none) : s.engine = .idle := by
  by_contra hactive
  have hbusy := (h.faultQuiet hfault).1
  simp [h.busyIff.2 hactive] at hbusy

theorem State.ActiveInv.fault_eq (h : s.ActiveInv p) : s.fault = .none := by
  by_contra hfault
  exact h.active (h.inv.engine_idle_of_fault hfault)

theorem State.ActiveInv.setEngine (h : s.ActiveInv p) {e : Engine} (active : e ≠ .idle) (ranges : e.inRanges p) :
    (s.setEngine e).Inv :=
  { h.inv with
    busyIff := by simp [h.inv.busyIff, h.active, active]
    engineRanges := h.platform_eq ▸ ranges }

theorem State.ActiveInv.finish (h : s.ActiveInv p) {v : Nat} (hv : v < memSize p) : (s.finish v).Inv :=
  h.inv.finish h.fault_eq (h.platform_eq ▸ hv)

theorem State.ActiveInv.finishBuffers (h : s.ActiveInv p) (hl : l.checked p) {v : Nat} (hv : v < memSize p) :
    (s.finishBuffers l v).Inv := by
  unfold State.finishBuffers
  split_ifs
  · exact (h.finish (memSize_pos p)).drawBytes (by simpa [h.platform_eq] using hl.dest_le)
  · exact h.finish hv

theorem State.ActiveInv.busError (h : s.ActiveInv p) (hl : l.checked p) : (s.busError l).Inv :=
  (h.inv.raiseFault .busError).drawBytes (by simpa [h.platform_eq] using hl.dest_le)

theorem State.ActiveInv.memRead (h : s.ActiveInv p) (hl : l.checked p) {a : Nat} {rest : Byte → State → State}
    (hrest : ∀ b u, State.ActiveInv p u → (rest b u).Inv) : (s.memRead l a rest).Inv := by
  rcases s.memRead_cases l a rest with ⟨-, heq⟩ | ⟨-, heq⟩ <;> rw [heq]
  · exact hrest _ _ ⟨h.inv.logAccess _ _ _, h.platform_eq, h.active⟩
  · exact h.busError hl

theorem State.ActiveInv.memWrite (h : s.ActiveInv p) (hl : l.checked p) {a : Nat} {b : Byte} {rest : State → State}
    (hrest : ∀ u, State.ActiveInv p u → (rest u).Inv) : (s.memWrite l a b rest).Inv := by
  rcases s.memWrite_cases l a b rest with ⟨hok, heq⟩ | ⟨-, heq⟩ <;> rw [heq]
  · exact hrest _ ⟨(h.inv.setByte (memOK_lt hok) b).logAccess _ _ _, h.platform_eq, h.active⟩
  · exact h.busError hl

theorem State.ActiveInv.encFinal (h : s.ActiveInv p) {r : EncRegs} (hr : (Engine.enc r).inRanges p) :
    (encFinal r s).Inv := by
  obtain ⟨hl, -, -, -, -⟩ := hr
  have hcap : r.args.dCap < memSize p := hl.1.2.2.2
  unfold Machine.encFinal
  split_ifs with hw
  · exact h.finishBuffers hl (memSize_pos p)
  · exact h.memWrite hl fun _ hu => hu.memWrite hl fun _ hv => hv.finishBuffers hl (by omega)

/-- The cursor invariants of ENCODE (10_state.md R36, R38): the capacity check precedes every write, and the full check
precedes the copy. -/
theorem State.ActiveInv.encStep (h : s.ActiveInv p) {r : EncRegs} (hr : (Engine.enc r).inRanges p) :
    (encStep r s).Inv := by
  obtain ⟨hl, hc, hw, hspan, hin⟩ := hr
  unfold Machine.encStep
  split_ifs with hlen hcap hfull
  · exact h.finishBuffers hl (memSize_pos p)
  · exact h.memWrite hl fun _ hu => hu.setEngine (by simp) ⟨hl, by dsimp only; omega⟩
  · refine h.memRead hl fun b u hu => ?_
    have hspan' : r.w - r.c < 255 := lt_of_le_of_ne hspan hfull
    split_ifs
    · exact hu.memWrite hl fun _ hv => hv.setEngine (by simp) ⟨hl, by dsimp only; omega⟩
    · exact hu.memWrite hl fun _ hv => hv.setEngine (by simp) ⟨hl, by dsimp only; omega⟩
  · exact h.encFinal ⟨hl, hc, hw, hspan, hin⟩

theorem State.ActiveInv.decFirstStep (h : s.ActiveInv p) {r : FirstRegs} (hr : (Engine.decFirst r).inRanges p) :
    (decFirstStep r s).Inv := by
  obtain ⟨hl, hw, hterm⟩ := hr
  unfold Machine.decFirstStep
  split_ifs with hlen
  · exact h.finishBuffers hl (memSize_pos p)
  · refine h.memRead hl fun b u hu => hu.setEngine (by simp) ?_
    have hb : b.toNat < 256 := b.isLt
    refine ⟨hl, ?_, ?_, ?_, ?_, ?_, hterm⟩ <;> dsimp only <;> omega

/-- The registers after a code byte, with the cursor advanced or not, are in their ranges. -/
theorem afterCode_inRanges {r : ScanRegs} (hr : (Engine.decScan r).inRanges p) (hlen : r.inp < r.args.sLen) (b : Byte)
    {w : Nat} (hw : w ≤ r.w + 1) (hcap : w ≤ r.args.dCap) : (afterCode r b w).inRanges p := by
  obtain ⟨hl, hin, -, hwin, -, -, hterm⟩ := hr
  have hb : b.toNat < 256 := b.isLt
  refine ⟨hl, ?_, ?_, ?_, hcap, ?_, hterm⟩ <;> dsimp only <;> omega

theorem State.ActiveInv.decTerminator (h : s.ActiveInv p) {r : ScanRegs} (hr : (Engine.decScan r).inRanges p) :
    (decTerminator r s).Inv := by
  obtain ⟨hl, -, -, -, hcap, -, -⟩ := hr
  unfold Machine.decTerminator
  split_ifs
  · exact h.finishBuffers hl (hcap.trans_lt hl.1.2.2.2)
  · exact h.finishBuffers hl (memSize_pos p)

theorem State.ActiveInv.decCode (h : s.ActiveInv p) {r : ScanRegs} (hr : (Engine.decScan r).inRanges p)
    (hlen : r.inp < r.args.sLen) (hcap : r.w < r.args.dCap) (b : Byte) : (decCode r b s).Inv := by
  unfold Machine.decCode
  split_ifs
  · exact h.memWrite hr.1 fun _ hu => hu.setEngine (by simp [afterCode])
      (afterCode_inRanges hr hlen b (le_refl _) hcap)
  · exact h.setEngine (by simp [afterCode]) (afterCode_inRanges hr hlen b (Nat.le_succ _) hcap.le)

theorem State.ActiveInv.decData (h : s.ActiveInv p) {r : ScanRegs} (hr : (Engine.decScan r).inRanges p)
    (hlen : r.inp < r.args.sLen) (hcap : r.w < r.args.dCap) (b : Byte) : (decData r b s).Inv := by
  obtain ⟨hl, hin, -, hw, -, hnext, hterm⟩ := hr
  refine h.memWrite hl fun _ hu => hu.setEngine (by simp) ⟨hl, ?_, ?_, ?_, ?_, ?_, hterm⟩ <;> dsimp only <;> omega

/-- The cursor invariants of DECODE (10_state.md R38): every emitted byte follows one that was scanned, and the capacity
check precedes every write. -/
theorem State.ActiveInv.decScanStep (h : s.ActiveInv p) {r : ScanRegs} (hr : (Engine.decScan r).inRanges p) :
    (decScanStep r s).Inv := by
  unfold Machine.decScanStep
  split
  · next hlen =>
    refine h.memRead hr.1 fun b u hu => ?_
    split_ifs with _ hcap
    · exact hu.decTerminator hr
    · exact hu.finishBuffers hr.1 (memSize_pos p)
    · exact hu.decCode hr hlen (by omega) b
    · exact hu.decData hr hlen (by omega) b
  · exact h.finishBuffers hr.1 (memSize_pos p)

theorem minencResult_lt (p : Platform) (n : Nat) : minencResult p n < memSize p := by
  have := memSize_pos p
  unfold minencResult
  split_ifs <;> omega

theorem minDecodedSize_le (n : Nat) : minDecodedSize n ≤ n := by
  unfold minDecodedSize
  split_ifs <;> omega

theorem State.ActiveInv.sizeStep (h : s.ActiveInv p) {op : Sizing} (hr : (Engine.size op l).inRanges p) :
    (sizeStep op l s).Inv := by
  cases op with
  | minenc => exact h.finish (h.platform_eq ▸ minencResult_lt _ _)
  | mindec => exact h.finish ((minDecodedSize_le _).trans_lt hr.2.1)

end ActiveInv

theorem State.Inv.engineTurn {s : State} (h : s.Inv) : (engineTurn s).Inv := by
  have hactive : s.engine ≠ .idle → s.ActiveInv s.platform := fun he => ⟨h, rfl, he⟩
  cases he : s.engine with
  | idle => exact (engineTurn_idle he).symm ▸ h
  | enc r => exact engineTurn_enc he ▸ (hactive (by simp [he])).encStep (he ▸ h.engineRanges)
  | decFirst r => exact engineTurn_decFirst he ▸ (hactive (by simp [he])).decFirstStep (he ▸ h.engineRanges)
  | decScan r => exact engineTurn_decScan he ▸ (hactive (by simp [he])).decScanStep (he ▸ h.engineRanges)
  | size op l => exact engineTurn_size he ▸ (hactive (by simp [he])).sizeStep (he ▸ h.engineRanges)

/-! ### The events -/

theorem EventEffect.inv {e : Event} {s t : State} (h : EventEffect s e t) (hs : s.Inv) : t.Inv := by
  cases h with
  | cmdWrite _ h => exact h.inv hs
  | regWrite _ _ => exact hs.withArgs (ArgRegs.fits_put (x := s.args) hs.argsFit _ _)
  | regRead _ => exact hs.reply _
  | memWrite ha => exact hs.setByte ha _
  | memRead => exact hs.reply _
  | memReadDrawn => exact (hs.reply _).countDraw
  | poll => exact (hs.reply _).withInputs _
  | reset => exact hs.resetBlock
  | platformReset => exact hs.resetPlatform
  | engine => exact hs.engineTurn

end Sys2Proof.Machine
end

section
/-! PROOFS. The statements of the family 10_state.md. -/

namespace Sys2Proof.Machine

open Sys2Proof Config

/-- Settles O41: every effect of an event, and the engine's turn, keeps the invariant. -/
theorem everyStepKeepsTheInvariant : Obligations.EveryStepKeepsTheInvariant := by
  intro s t hs h
  rcases step_effect h with ⟨-, rfl⟩ | ⟨e, rest, -, he⟩
  · exact hs.engineTurn
  · exact he.inv (hs.withInputs rest)

/-- Settles O13, from the three things an issue can do. -/
theorem issueFrame : Obligations.IssueFrame := by
  intro i s t h
  have he := exec_effect h
  obtain ⟨hmem, hdrawn, hdraws, htrace, hinputs⟩ := he.mem_frame
  refine ⟨he.sameHostSide, ⟨State.byteAt_congr hmem hdrawn, hdraws⟩, hmem, hdrawn, htrace, hinputs,
    fun hf => he.eq_self ?_, fun hb => he.eq_self ?_, he.fault_cases⟩
  · simp [State.takesCommand, hf]
  · simp [State.takesCommand, hb]

/-- Settles O44: the invariant makes a faulted block quiet and IDLE, and no event but a reset ends that. -/
theorem faultStaysUntilReset : Obligations.FaultStaysUntilReset := by
  intro s t hs hfault hreset hplatform h
  have hidle := hs.engine_idle_of_fault hfault
  obtain ⟨hbusy, hdone, hresult⟩ := hs.faultQuiet hfault
  rcases step_effect h with ⟨-, rfl⟩ | ⟨e, rest, hi, he⟩
  · rw [engineTurn_idle hidle]
    exact ⟨rfl, hbusy, hdone, hresult, hidle, rfl⟩
  · rw [hi] at hreset hplatform
    obtain ⟨⟨hr, hb, hd, hf⟩, heng, htrace⟩ :=
      he.faulted_frame hfault hidle (by simpa using hreset) (by simpa using hplatform)
    exact ⟨hf, hb.trans hbusy, hd.trans hdone, hr.trans hresult, heng.trans hidle, htrace⟩

/-- Settles O45: the effects that are no reset and no write to an argument register keep all four. -/
theorem onlyHostWritesChangeArguments : Obligations.OnlyHostWritesChangeArguments := by
  intro s t h hreset hplatform hwrite
  have hargs : t.args = s.args := by
    rcases step_effect h with ⟨-, rfl⟩ | ⟨e, rest, hi, he⟩
    · exact (engineTurn_hostBlind.frame s).args_eq
    · rw [hi] at hreset hplatform hwrite
      exact he.args_eq (by simpa using hreset) (by simpa using hplatform)
        fun addr size v r hev hr => hwrite addr size v r (congrArg some hev) hr
  simpa [State.args] using hargs

/-- Settles O46: such a write changes the argument registers alone, and the engine's turn neither writes nor reads
them. -/
theorem registerWriteCommutesWithEngineStep : Obligations.RegisterWriteCommutesWithEngineStep := by
  intro s t r v hne h
  rw [regWrite_of_ne_cmd hne] at h ⊢
  cases h
  have hframe := engineTurn_hostBlind.frame s
  rw [engineTurn_hostBlind.commutes, hframe.args_eq, hframe.1]

/-- Settles O39, register by register. -/
theorem resetStateRegisters : Obligations.ResetStateRegisters := by
  refine ⟨fun r => ?_, rfl, rfl⟩
  cases r <;> decide

/-- Settles O40: the block is IDLE and memory lists nothing. -/
theorem invariantAtReset : Obligations.InvariantAtReset where
  platformWf := by decide
  memCanonical := rfl
  cellsExist := fun _ hc => absurd hc List.not_mem_nil
  drawnExist := fun _ hd => absurd hd List.not_mem_nil
  argsFit := ⟨memSize_pos _, memSize_pos _, memSize_pos _, memSize_pos _⟩
  resultFits := memSize_pos _
  busyIff := by simp [State.reset]
  notBusyAndDone := by simp [State.reset]
  faultQuiet := fun hf => absurd rfl hf
  resultDone := fun hr => absurd rfl hr
  engineRanges := trivial

end Sys2Proof.Machine
end

section
/-! PROOFS. What an engine step accesses and changes of data memory: one rule for each operation of the engine's side,
then the engine's turn. -/

namespace Sys2Proof.Machine

open Sys2Proof Config

/-! ### Accesses within a command's buffers (20_memory.md R54, R55) -/

/-- An access to a command's buffers that R55 allows: a read in the source or a write in the destination. -/
def Latched.allows (l : Latched) (x : Access) : Prop :=
  x.kind = .read ∧ l.sBase ≤ x.addr ∧ x.addr < l.sBase + l.sLen ∨
    x.kind = .write ∧ l.dBase ≤ x.addr ∧ x.addr < l.dBase + l.dCap

/-- From `s` to `t` every new access is one R55 allows, and no byte outside the destination changes. -/
structure StaysIn (l : Latched) (s t : State) : Prop where
  accesses : ∃ new, t.trace = new ++ s.trace ∧ ∀ x ∈ new, l.allows x
  memory : SameOutside l.dBase l.dCap s t

theorem StaysIn.trans {l : Latched} {s t u : State} (h : StaysIn l s t) (h' : StaysIn l t u) : StaysIn l s u := by
  obtain ⟨⟨new, htrace, hnew⟩, hmem⟩ := h
  obtain ⟨⟨new', htrace', hnew'⟩, hmem'⟩ := h'
  refine ⟨⟨new' ++ new, by rw [htrace', htrace, List.append_assoc], fun x hx => ?_⟩,
    fun a ha => (hmem' a ha).trans (hmem a ha)⟩
  exact (List.mem_append.1 hx).elim (hnew' x) (hnew x)

/-- An operation that makes no access stays in the buffers if it changes no byte outside the destination. -/
theorem StaysIn.of_trace_eq {l : Latched} {s t : State} (htrace : t.trace = s.trace)
    (hmem : SameOutside l.dBase l.dCap s t) : StaysIn l s t :=
  ⟨⟨[], htrace, fun _ hx => absurd hx List.not_mem_nil⟩, hmem⟩

section Operations

variable {l : Latched} {s : State}

theorem staysIn_setEngine (e : Engine) : StaysIn l s (s.setEngine e) := .of_trace_eq rfl fun _ _ => rfl

theorem staysIn_finishBuffers (v : Nat) : StaysIn l s (s.finishBuffers l v) :=
  .of_trace_eq (State.finishBuffers_trace s l v) fun a ha => by
    rw [State.byteAt_finishBuffers, if_neg (by omega)]

theorem staysIn_busError : StaysIn l s (s.busError l) :=
  .of_trace_eq (State.busError_trace s l) fun a ha => by
    rw [State.byteAt_busError, if_neg (by omega)]

theorem staysIn_logRead {k : Nat} (hk : k < l.sLen) (b : Byte) :
    StaysIn l s (s.logAccess .read (l.sBase + k) b) := by
  refine ⟨⟨[_], rfl, fun x hx => ?_⟩, fun _ _ => rfl⟩
  rw [List.mem_singleton.1 hx]
  exact .inl ⟨rfl, by dsimp only; omega⟩

theorem staysIn_logWrite {k : Nat} (hk : k < l.dCap) (b : Byte) :
    StaysIn l s ((s.setByte (l.dBase + k) b).logAccess .write (l.dBase + k) b) := by
  refine ⟨⟨[_], rfl, fun x hx => ?_⟩, fun a ha => ?_⟩
  · rw [List.mem_singleton.1 hx]
    exact .inr ⟨rfl, by dsimp only; omega⟩
  · rw [State.byteAt_logAccess, State.byteAt_setByte, if_neg (by omega)]

theorem staysIn_memRead {k : Nat} (hk : k < l.sLen) {rest : Byte → State → State}
    (hrest : ∀ b u, StaysIn l u (rest b u)) : StaysIn l s (s.memRead l (l.sBase + k) rest) := by
  rcases s.memRead_cases l (l.sBase + k) rest with ⟨-, heq⟩ | ⟨-, heq⟩ <;> rw [heq]
  · exact (staysIn_logRead hk _).trans (hrest _ _)
  · exact staysIn_busError

theorem staysIn_memWrite {k : Nat} (hk : k < l.dCap) {b : Byte} {rest : State → State}
    (hrest : ∀ u, StaysIn l u (rest u)) : StaysIn l s (s.memWrite l (l.dBase + k) b rest) := by
  rcases s.memWrite_cases l (l.dBase + k) b rest with ⟨-, heq⟩ | ⟨-, heq⟩ <;> rw [heq]
  · exact (staysIn_logWrite hk b).trans (hrest _)
  · exact staysIn_busError

end Operations

/-! ### The engine's turn -/

section Turns

variable {s : State}

theorem encFinal_staysIn {r : EncRegs} (hcw : r.c < r.w) : StaysIn r.args s (encFinal r s) := by
  unfold encFinal
  split_ifs with hcap
  · exact staysIn_finishBuffers 0
  · exact staysIn_memWrite (by omega) fun _ => staysIn_memWrite (by omega) fun _ => staysIn_finishBuffers _

/-- The capacity check precedes every write, and the pending code position is before the write cursor
(41_encode.md R123, 10_state.md R38). -/
theorem encStep_staysIn {r : EncRegs} (hcw : r.c < r.w) : StaysIn r.args s (encStep r s) := by
  unfold encStep
  split_ifs with hlen hcap hfull
  · exact staysIn_finishBuffers 0
  · exact staysIn_memWrite (by omega) fun _ => staysIn_setEngine _
  · refine staysIn_memRead hlen fun b u => ?_
    split_ifs
    · exact staysIn_memWrite (by omega) fun _ => staysIn_setEngine _
    · exact staysIn_memWrite (by omega) fun _ => staysIn_setEngine _
  · exact encFinal_staysIn hcw

theorem decFirstStep_staysIn (r : FirstRegs) : StaysIn r.args s (decFirstStep r s) := by
  unfold decFirstStep
  split_ifs with hlen
  · exact staysIn_finishBuffers 0
  · exact staysIn_memRead (Nat.pos_of_ne_zero hlen) fun _ _ => staysIn_setEngine _

theorem decTerminator_staysIn (r : ScanRegs) : StaysIn r.args s (decTerminator r s) := by
  unfold decTerminator
  split_ifs <;> exact staysIn_finishBuffers _

theorem decCode_staysIn {r : ScanRegs} (hcap : r.w < r.args.dCap) (b : Byte) :
    StaysIn r.args s (decCode r b s) := by
  unfold decCode
  split_ifs
  · exact staysIn_memWrite hcap fun _ => staysIn_setEngine _
  · exact staysIn_setEngine _

/-- The capacity check precedes every write (42_decode.md R163). -/
theorem decScanStep_staysIn (r : ScanRegs) : StaysIn r.args s (decScanStep r s) := by
  unfold decScanStep
  split
  · next hlen =>
    refine staysIn_memRead hlen fun b u => ?_
    split_ifs with _ hcap
    · exact decTerminator_staysIn r
    · exact staysIn_finishBuffers 0
    · exact decCode_staysIn (by omega) b
    · exact staysIn_memWrite (by omega) fun _ => staysIn_setEngine _
  · exact staysIn_finishBuffers 0

theorem engineTurn_staysIn (h : s.Inv) {l : Latched} (hl : s.engine.buffers = some l) :
    StaysIn l s (engineTurn s) := by
  have hranges := h.engineRanges
  cases he : s.engine <;> rw [he] at hl hranges <;> cases hl
  case enc r =>
    obtain ⟨-, hcw, -⟩ := hranges
    exact engineTurn_enc he ▸ encStep_staysIn hcw
  case decFirst r => exact engineTurn_decFirst he ▸ decFirstStep_staysIn r
  case decScan r => exact engineTurn_decScan he ▸ decScanStep_staysIn r

/-- The idle engine and the sizing commands make no access and leave memory (20_memory.md R55). -/
theorem engineTurn_of_no_buffers (h : s.engine.buffers = none) :
    (engineTurn s).trace = s.trace ∧ SameMemory s (engineTurn s) := by
  cases he : s.engine <;> rw [he] at h <;> cases h
  case idle => rw [engineTurn_idle he]; exact ⟨rfl, fun _ => rfl, rfl⟩
  case size op l => rw [engineTurn_size he]; cases op <;> exact ⟨rfl, fun _ => rfl, rfl⟩

/-- Everything a step that is the engine's turn can do to data memory and to the accesses made. -/
theorem engineNext_step_memory (h : s.Inv) (hnext : s.engineNext) :
    ∃ t, step s = .next t ∧
      (s.engine.buffers = none → t.trace = s.trace ∧ SameMemory s t) ∧
      ∀ l, s.engine.buffers = some l → StaysIn l s t := by
  refine ⟨_, step_of_engineNext hnext, fun hnone => ?_, fun l hl => ?_⟩
  · exact engineTurn_of_no_buffers (s := s.withInputs s.inputs.tail) hnone
  · have hstays := engineTurn_staysIn (h.withInputs s.inputs.tail) hl
    exact ⟨hstays.accesses, hstays.memory⟩

end Turns

/-- The checks of issue keep the source of an active command apart from its destination (40_command_issue.md R108). -/
theorem Latched.checked.source_outside_dest {p : Platform} {l : Latched} (h : l.checked p) {a : Nat}
    (hlo : l.sBase ≤ a) (hhi : a < l.sBase + l.sLen) : a < l.dBase ∨ l.dBase + l.dCap ≤ a := by
  obtain ⟨-, hfault⟩ := h
  obtain ⟨-, -, hoverlap⟩ := (bufferFault_eq_none_iff p l).1 hfault
  have := mt (overlapping_iff l).2 (by simp [hoverlap])
  omega

end Sys2Proof.Machine
end

section
/-! PROOFS. The host's accesses to data memory and to the register window, access by access. -/

namespace Sys2Proof.Machine

open Sys2Proof Config

/-! ### Register accesses (20_memory.md R56, 40_command_issue.md R100) -/

theorem wordAccess_iff (base addr size : Nat) :
    wordAccess base addr size = true ↔ size = 4 ∧ base ≤ addr ∧ addr < base + 32 ∧ (addr - base) % 4 = 0 := by
  simp [wordAccess, and_assoc]

theorem regAt_eq_none {p : Platform} {addr size : Nat} (h : wordAccess p.regBase addr size = false) :
    regAt p addr size = none := by simp [regAt, h]

theorem takeEvent_regWr {addr size : Nat} {v : Word} {r : Reg} {s : State} (h : regAt s.platform addr size = some r) :
    takeEvent (.regWr addr size v) s = regWrite r v s := by simp [takeEvent, h]

theorem takeEvent_regWr_refused {addr size : Nat} {v : Word} {s : State} (h : regAt s.platform addr size = none) :
    takeEvent (.regWr addr size v) s = .refused (regRefusal s.platform addr size) := by simp [takeEvent, h]

theorem takeEvent_regRd_refused {addr size : Nat} {s : State} (h : regAt s.platform addr size = none) :
    takeEvent (.regRd addr size) s = .refused (regRefusal s.platform addr size) := by simp [takeEvent, h]

/-- A CMD write of a command's word is that command's issue (R102). -/
theorem cmdWrite_of_decodes {v : Word} {i : Instr} (h : decodeCmd v = .ok i) (s : State) :
    cmdWrite v s = exec i s := by simp [cmdWrite, h]

/-! ### Memory accesses (20_memory.md R60 to R62) -/

section HostMemory

variable {s : State} {a : Nat}

@[simp] theorem State.inSource_withInputs (x : List Event) : (s.withInputs x).inSource a = s.inSource a := rfl
@[simp] theorem State.inDest_withInputs (x : List Event) : (s.withInputs x).inDest a = s.inDest a := rfl

theorem State.inSource_iff :
    s.inSource a = true ↔ ∃ l, s.engine.buffers = some l ∧ l.sBase ≤ a ∧ a < l.sBase + l.sLen := by
  unfold State.inSource
  cases s.engine.buffers <;> simp

theorem State.inDest_iff :
    s.inDest a = true ↔ ∃ l, s.engine.buffers = some l ∧ l.dBase ≤ a ∧ a < l.dBase + l.dCap := by
  unfold State.inDest
  cases s.engine.buffers <;> simp

/-- A step that is a host write of an existing byte: a hazard, or an ordinary write. -/
theorem step_memWr {b : Byte} {rest : List Event} (hinputs : s.inputs = .memWr a b :: rest)
    (ha : a < memSize s.platform) (hw : inWindow s.platform a = false) :
    step s =
      if s.busy = true ∧ (s.inSource a = true ∨ s.inDest a = true) then .fault .hazardBufferWrite
      else .next ((s.withInputs rest).setByte a b) := by
  simp [step_of_event hinputs, takeEvent, hostMemWrite, ha.not_ge, hw]

/-- A step that is a host read of an existing byte: a fresh free value, or the memory's byte. -/
theorem step_memRd {rest : List Event} (hinputs : s.inputs = .memRd a :: rest)
    (ha : a < memSize s.platform) (hw : inWindow s.platform a = false) :
    step s =
      if s.busy = true ∧ s.inDest a = true then
        .next { (s.withInputs rest).reply (.mem a (freeByte s.draws a)) with draws := s.draws + 1 }
      else .next ((s.withInputs rest).reply (.mem a (s.byteAt a))) := by
  simp [step_of_event hinputs, takeEvent, hostMemRead, ha.not_ge, hw]

end HostMemory

end Sys2Proof.Machine
end

section
/-! PROOFS. The statements of the family 20_memory.md. -/

namespace Sys2Proof.Machine

open Sys2Proof Config

/-- Settles O42: without buffers there is no access, and with them the step stays in them. -/
theorem engineAccessesStayInBounds : Obligations.EngineAccessesStayInBounds := by
  intro s hs hnext
  obtain ⟨t, hstep, hnone, hsome⟩ := engineNext_step_memory hs hnext
  cases hb : s.engine.buffers with
  | none => exact ⟨t, [], hstep, (hnone hb).1, fun _ hx => absurd hx List.not_mem_nil⟩
  | some l =>
    obtain ⟨new, htrace, hnew⟩ := (hsome l hb).accesses
    exact ⟨t, new, hstep, htrace, fun x hx => ⟨l, rfl, hnew x hx⟩⟩

/-- Settles O43: the step stays in the buffers, and the source lies outside the destination. -/
theorem engineChangesOnlyTheDestination : Obligations.EngineChangesOnlyTheDestination := by
  intro s hs hnext
  obtain ⟨t, hstep, hnone, hsome⟩ := engineNext_step_memory hs hnext
  refine ⟨t, hstep, fun hb => (hnone hb).2, fun l hl => ?_⟩
  have hmem := (hsome l hl).memory
  have hchecked := Engine.checked_of_buffers hs.engineRanges hl
  exact ⟨hmem, fun a hlo hhi => hmem a (hchecked.source_outside_dest hlo hhi)⟩

/-- Settles O4: the word access at the window's base reaches CMD, whose write runs the decoded command. -/
theorem stepRunsTheDecodedCommand : Obligations.StepRunsTheDecodedCommand := by
  intro s v rest i hinputs hdecode
  calc step s = takeEvent (.regWr s.platform.regBase 4 v) (s.withInputs rest) := step_of_event hinputs
    _ = cmdWrite v (s.withInputs rest) := takeEvent_regWr (s := s.withInputs rest) (regAt_regBase s.platform)
    _ = exec i (s.withInputs rest) := cmdWrite_of_decodes hdecode _

/-- Settles O34: such an access reaches no register, and it touches the window. -/
theorem nonWordRegisterAccessIsRefused : Obligations.NonWordRegisterAccessIsRefused := by
  intro s addr size v rest hinputs hbelow habove hform
  have hword : wordAccess s.platform.regBase addr size = false := by
    rw [← Bool.not_eq_true, wordAccess_iff]
    omega
  have hreg := regAt_eq_none hword
  have hrefusal : regRefusal s.platform addr size = .registerAccessNotWord := if_pos ⟨hbelow, habove⟩
  rcases hinputs with hinputs | hinputs <;> rw [step_of_event hinputs, ← hrefusal]
  · exact takeEvent_regWr_refused hreg
  · exact takeEvent_regRd_refused hreg

/-- Settles O35, in both buffers. -/
theorem hostWriteToActiveBufferIsHazard : Obligations.HostWriteToActiveBufferIsHazard := by
  intro s l a b rest hinputs hbusy hl ha hw hin
  have hactive : s.inSource a = true ∨ s.inDest a = true := by
    rw [State.inSource_iff, State.inDest_iff]
    exact hin.imp (⟨l, hl, ·⟩) (⟨l, hl, ·⟩)
  exact (step_memWr hinputs ha hw).trans (if_pos ⟨hbusy, hactive⟩)

/-- Settles O36: the write is no hazard, so it sets the one byte. -/
theorem hostWriteOutsideActiveBuffers : Obligations.HostWriteOutsideActiveBuffers := by
  intro s a b rest hinputs ha hw hout
  have hfree : ¬ (s.busy = true ∧ (s.inSource a = true ∨ s.inDest a = true)) := by
    rw [State.inSource_iff, State.inDest_iff]
    rintro ⟨hbusy, ⟨l, hl, hin⟩ | ⟨l, hl, hin⟩⟩
    · exact (hout hbusy l hl).1 hin
    · exact (hout hbusy l hl).2 hin
  refine ⟨_, (step_memWr hinputs ha hw).trans (if_neg hfree), ?_, ⟨fun x hx => ?_, rfl⟩, ⟨rfl, rfl, rfl, rfl⟩,
    ⟨rfl, rfl, rfl, rfl, rfl, rfl⟩, rfl, rfl, rfl⟩
  · rw [State.byteAt_setByte, if_pos rfl]
  · rw [State.byteAt_setByte, if_neg hx, State.byteAt_withInputs]

/-- Settles O37: the two clauses are the two branches of an existing byte's read. -/
theorem hostReadOfMemory : Obligations.HostReadOfMemory := by
  intro s a rest hinputs ha hw
  rw [step_memRd hinputs ha hw]
  refine ⟨fun ⟨hbusy, hdest⟩ => if_pos ⟨hbusy, State.inDest_iff.2 hdest⟩, fun hout => if_neg ?_⟩
  rintro ⟨hbusy, hdest⟩
  obtain ⟨l, hl, hin⟩ := State.inDest_iff.1 hdest
  exact hout hbusy l hl hin

end Sys2Proof.Machine
end

section
/-! PROOFS. The command decoder, read from the two fields of a word and from its value. -/

namespace Sys2Proof

open Laws

/-! ### The fields of a word (30_encoding.md R72) -/

theorem cmdOp_toNat (v : Word) : (cmdOp v).toNat = v.toNat % 8 := by simp [cmdOp]

theorem cmdRsvd_eq_zero_iff (v : Word) : cmdRsvd v = 0 ↔ v.toNat / 8 = 0 := by
  have hv := v.isLt
  rw [← BitVec.toNat_inj, cmdRsvd, BitVec.extractLsb'_toNat, Nat.shiftRight_eq_div_pow]
  change v.toNat / 8 % 2 ^ 29 = 0 ↔ _
  omega

theorem encodeCmd_fields (i : Instr) : CmdFields.Statement i := by
  cases i
  · exact CmdFields.encode
  · exact CmdFields.decode
  · exact CmdFields.minenc
  · exact CmdFields.mindec

/-! ### The decoder (30_encoding.md R73, R74) -/

/-- A word is a command exactly when its reserved bits are zero and OP is the command's code. -/
theorem decodeCmd_eq_ok_iff (v : Word) (i : Instr) : decodeCmd v = .ok i ↔ cmdRsvd v = 0 ∧ cmdOp v = opCode i := by
  unfold decodeCmd
  by_cases hr : cmdRsvd v = 0
  · rw [if_neg (not_not.2 hr), and_iff_right hr]
    generalize cmdOp v = op
    revert op
    cases i <;> decide
  · rw [if_pos hr]
    exact iff_of_false (by simp) fun h => hr h.1

/-- The word of a command has the value of its code. -/
theorem decodeCmd_eq_ok_iff_toNat (v : Word) (i : Instr) : decodeCmd v = .ok i ↔ v.toNat = (opCode i).toNat := by
  rw [decodeCmd_eq_ok_iff, cmdRsvd_eq_zero_iff, ← BitVec.toNat_inj, cmdOp_toNat]
  have hop := (opCode i).isLt
  omega

/-- The four codes are 1 to 4. -/
theorem exists_opCode_toNat_eq_iff (n : Nat) : (∃ i, n = (opCode i).toNat) ↔ 1 ≤ n ∧ n ≤ 4 := by
  constructor
  · rintro ⟨i, rfl⟩
    cases i <;> decide
  · rintro ⟨hlo, hhi⟩
    interval_cases n
    · exact ⟨.encode, rfl⟩
    · exact ⟨.decode, rfl⟩
    · exact ⟨.minenc, rfl⟩
    · exact ⟨.mindec, rfl⟩

end Sys2Proof
end

section
/-! PROOFS. How many turns the engine takes to the end of a command (40_command_issue.md R116): a count that every turn
lowers, one rule for each operation of the engine's side, then the engine's turn and issue. -/

namespace Sys2Proof.Machine

open Sys2Proof Config

/-! ### The turns left -/

/-- A bound on the turns an engine takes to its end, from the registers alone. The encoder takes one for each payload
byte left, one for each full block that the bytes left can fill with the pending block's data bytes, and the final one.
The decoder takes one for each frame byte left and one past the end. -/
def Engine.turnsLeft : Engine → Nat
  | .idle => 0
  | .enc r => (r.args.sLen - r.inp) + (r.args.sLen - r.inp + (r.w - r.c - 1)) / maxData + 1
  | .decFirst r => r.args.sLen + 1
  | .decScan r => r.args.sLen - r.inp + 1
  | .size _ _ => 1

theorem Engine.turnsLeft_pos {e : Engine} (h : e ≠ .idle) : 0 < e.turnsLeft := by
  cases e with
  | idle => exact absurd rfl h
  | _ => exact Nat.succ_pos _

/-- The bound of R116 on the turns of a command with source length `n`. -/
def turnBound (i : Instr) (n : Nat) : Nat :=
  match i with
  | .encode => n + n / maxData + 1
  | .decode => n + 1
  | .minenc => 1
  | .mindec => 1

theorem turnBound_le (i : Instr) (n : Nat) : turnBound i n ≤ n + n / 254 + 1 := by
  cases i <;> simp only [turnBound, maxData] <;> omega

/-- The command is over, or it is active with at most `n` turns left. -/
inductive State.EndsWithin (n : Nat) (s : State) : Prop where
  | ended (hbusy : s.busy = false) (hidle : s.engine = .idle)
  | active (hactive : s.engine ≠ .idle) (hle : s.engine.turnsLeft ≤ n)

theorem State.EndsWithin.not_busy {s : State} (h : s.EndsWithin 0) : s.busy = false := by
  cases h with
  | ended hbusy _ => exact hbusy
  | active hactive hle => exact absurd hle (Engine.turnsLeft_pos hactive).not_ge

theorem State.EndsWithin.active_of_busy {n : Nat} {s : State} (h : s.EndsWithin n) (hs : s.busy = true) :
    s.engine ≠ .idle ∧ s.engine.turnsLeft ≤ n := by
  cases h with
  | ended hbusy _ => simp [hs] at hbusy
  | active hactive hle => exact ⟨hactive, hle⟩

theorem State.EndsWithin.reply {n : Nat} {s : State} (h : s.EndsWithin n) (x : Reply) : (s.reply x).EndsWithin n := by
  cases h with
  | ended hbusy hidle => exact .ended hbusy hidle
  | active hactive hle => exact .active hactive hle

theorem State.EndsWithin.withInputs {n : Nat} {s : State} (h : s.EndsWithin n) (x : List Event) :
    (s.withInputs x).EndsWithin n := by
  cases h with
  | ended hbusy hidle => exact .ended hbusy hidle
  | active hactive hle => exact .active hactive hle

/-! ### The operations of the engine's side -/

/-- From `s` to `t` the coming events stay, and at `t` the command ends within `n` turns. -/
structure Advances (n : Nat) (s t : State) : Prop where
  inputs : t.inputs = s.inputs
  ends : t.EndsWithin n

section Operations

variable {n : Nat} {s : State} {l : Latched}

theorem advances_setEngine {e : Engine} (h : e ≠ .idle) (hle : e.turnsLeft ≤ n) : Advances n s (s.setEngine e) :=
  ⟨rfl, .active h hle⟩

theorem advances_finish (v : Nat) : Advances n s (s.finish v) := ⟨rfl, .ended rfl rfl⟩

theorem advances_finishBuffers (v : Nat) : Advances n s (s.finishBuffers l v) :=
  ⟨s.finishBuffers_inputs l v, .ended (s.finishBuffers_busy l v) (s.finishBuffers_engine l v)⟩

theorem advances_busError : Advances n s (s.busError l) :=
  ⟨s.busError_inputs l, .ended (s.busError_busy l) (s.busError_engine l)⟩

theorem advances_memRead {a : Nat} {rest : Byte → State → State} (h : ∀ b u, Advances n u (rest b u)) :
    Advances n s (s.memRead l a rest) := by
  rcases s.memRead_cases l a rest with ⟨-, heq⟩ | ⟨-, heq⟩ <;> rw [heq]
  · exact ⟨(h _ _).inputs, (h _ _).ends⟩
  · exact advances_busError

theorem advances_memWrite {a : Nat} {b : Byte} {rest : State → State} (h : ∀ u, Advances n u (rest u)) :
    Advances n s (s.memWrite l a b rest) := by
  rcases s.memWrite_cases l a b rest with ⟨-, heq⟩ | ⟨-, heq⟩ <;> rw [heq]
  · exact ⟨(h _).inputs, (h _).ends⟩
  · exact advances_busError

end Operations

/-! ### The engine's turn -/

section Turns

variable {n : Nat} {s : State}

theorem encFinal_advances (r : EncRegs) : Advances n s (encFinal r s) := by
  unfold encFinal
  split_ifs
  · exact advances_finishBuffers 0
  · exact advances_memWrite fun _ => advances_memWrite fun _ => advances_finishBuffers _

/-- A full close empties the pending block of its 254 data bytes, a zero close takes a payload byte and empties the
block, and a copy moves a byte from the payload to the block. -/
theorem encStep_advances {r : EncRegs} (h : (Engine.enc r).turnsLeft ≤ n + 1) : Advances n s (encStep r s) := by
  simp only [Engine.turnsLeft, maxData] at h
  unfold encStep
  split_ifs with hlen hcap hfull
  · exact advances_finishBuffers 0
  · rw [fullSpan] at hfull
    exact advances_memWrite fun _ => advances_setEngine (by simp) (by simp only [Engine.turnsLeft, maxData]; omega)
  · refine advances_memRead fun b u => ?_
    split_ifs <;>
      exact advances_memWrite fun _ => advances_setEngine (by simp) (by simp only [Engine.turnsLeft, maxData]; omega)
  · exact encFinal_advances r

theorem decFirstStep_advances {r : FirstRegs} (h : (Engine.decFirst r).turnsLeft ≤ n + 1) :
    Advances n s (decFirstStep r s) := by
  simp only [Engine.turnsLeft] at h
  unfold decFirstStep
  split_ifs with hlen
  · exact advances_finishBuffers 0
  · exact advances_memRead fun _ _ => advances_setEngine (by simp) (by simp only [Engine.turnsLeft]; omega)

theorem decTerminator_advances (r : ScanRegs) : Advances n s (decTerminator r s) := by
  unfold decTerminator
  split_ifs <;> exact advances_finishBuffers _

/-- A code byte and a data byte each take one frame byte. -/
theorem decScanStep_advances {r : ScanRegs} (h : (Engine.decScan r).turnsLeft ≤ n + 1) :
    Advances n s (decScanStep r s) := by
  simp only [Engine.turnsLeft] at h
  unfold decScanStep
  split
  · next hlen =>
    have hleft : r.args.sLen - (r.inp + 1) + 1 ≤ n := by omega
    refine advances_memRead fun b u => ?_
    split_ifs
    · exact decTerminator_advances r
    · exact advances_finishBuffers 0
    · unfold decCode
      split_ifs
      · exact advances_memWrite fun _ => advances_setEngine (by simp [afterCode]) hleft
      · exact advances_setEngine (by simp [afterCode]) hleft
    · exact advances_memWrite fun _ => advances_setEngine (by simp) hleft
  · exact advances_finishBuffers 0

/-- Every turn of an active command lowers the count (40_command_issue.md R116). -/
theorem engineTurn_advances (h : s.EndsWithin (n + 1)) (hbusy : s.busy = true) : Advances n s (engineTurn s) := by
  obtain ⟨hactive, hle⟩ := h.active_of_busy hbusy
  cases he : s.engine with
  | idle => exact absurd he hactive
  | enc r => exact engineTurn_enc he ▸ encStep_advances (he ▸ hle)
  | decFirst r => exact engineTurn_decFirst he ▸ decFirstStep_advances (he ▸ hle)
  | decScan r => exact engineTurn_decScan he ▸ decScanStep_advances (he ▸ hle)
  | size op l =>
    rw [engineTurn_size he]
    cases op <;> exact advances_finish _

end Turns

/-! ### Issue -/

section Issue

variable {s t : State}

theorem issueBuffers_advances {init : Latched → Engine} {n : Nat} (hs : s.busy = false)
    (hbusy : (issueBuffers init s).busy = true) (hactive : init s.latch ≠ .idle)
    (hle : (init s.latch).turnsLeft ≤ n) : Advances n s (issueBuffers init s) := by
  rcases issueBuffers_cases init s with ⟨-, heq⟩ | ⟨-, c, -, heq⟩ | ⟨-, -, heq⟩ <;> rw [heq] at hbusy ⊢
  · simp [hs] at hbusy
  · simp at hbusy
  · exact ⟨rfl, .active hactive hle⟩

theorem issueSizing_advances {op : Sizing} (hs : s.busy = false) (hbusy : (issueSizing op s).busy = true) :
    Advances 1 s (issueSizing op s) := by
  rcases issueSizing_cases op s with ⟨-, heq⟩ | ⟨-, heq⟩ <;> rw [heq] at hbusy ⊢
  · simp [hs] at hbusy
  · exact ⟨rfl, .active (by simp) (le_refl 1)⟩

/-- An accepted command starts with no more turns left than its bound (40_command_issue.md R116). -/
theorem exec_advances {i : Instr} (h : exec i s = .next t) (hs : s.busy = false) (hbusy : t.busy = true) :
    Advances (turnBound i s.latch.sLen) s t := by
  cases i <;> cases h
  · exact issueBuffers_advances hs hbusy (by simp [encoderInit]) (by simp [encoderInit, Engine.turnsLeft, turnBound])
  · exact issueBuffers_advances hs hbusy (by simp [decoderInit]) (le_refl _)
  · exact issueSizing_advances hs hbusy
  · exact issueSizing_advances hs hbusy

end Issue

end Sys2Proof.Machine
end

section
/-! PROOFS. The host's POLL (30_encoding.md R81): one read, and the loop on STATUS.BUSY. -/

namespace Sys2Proof.Machine

open Sys2Proof Config

theorem step_poll {s : State} {f : RegField} {v : Nat} {gaps : List Nat} {rest : List Event}
    (h : s.inputs = .poll f v gaps :: rest) : step s = .next (hostPollRead f v gaps (s.withInputs rest)) :=
  step_of_event h

@[simp] theorem readReg_withInputs (r : Reg) (s : State) (x : List Event) :
    readReg r (s.withInputs x) = readReg r s := by cases r <;> rfl

theorem step_poll_leaves {s : State} {f : RegField} {v : Nat} {gaps : List Nat} {rest : List Event}
    (h : s.inputs = .poll f v gaps :: rest) (hv : fieldValue s.platform f (readReg (fieldReg f) s) = v) :
    step s = .next ((s.withInputs rest).reply (.reg (fieldReg f) (readReg (fieldReg f) s))) := by
  rw [step_poll h]
  rcases hostPollRead_cases f v gaps (s.withInputs rest) with ⟨-, heq⟩ | ⟨hne, -⟩
  · rw [heq, readReg_withInputs]
  · exact absurd (by simpa using hv) hne

theorem step_poll_repeats {s : State} {f : RegField} {v : Nat} {gaps : List Nat} {rest : List Event}
    (h : s.inputs = .poll f v gaps :: rest) (hv : fieldValue s.platform f (readReg (fieldReg f) s) ≠ v) :
    step s = .next ((s.reply (.reg (fieldReg f) (readReg (fieldReg f) s))).withInputs
      (List.replicate (gaps.headD 1) .engine ++ .poll f v gaps.tail :: rest)) := by
  rw [step_poll h]
  rcases hostPollRead_cases f v gaps (s.withInputs rest) with ⟨heq, -⟩ | ⟨-, heq⟩
  · exact absurd (by simpa using heq) hv
  · rw [heq, readReg_withInputs]
    rfl

/-! ### The loop on STATUS.BUSY -/

/-- A POLL of `STATUS.BUSY == 0` has ended at `u`: no event is left, and its last read shows BUSY 0. -/
def BusyPollEnded (u : State) : Prop :=
  u.busy = false ∧ u.inputs = [] ∧ ∃ w : Word, u.replies.head? = some (.reg .status w) ∧ w.toNat % 2 = 0

/-- A read while the block is not busy ends the loop. -/
theorem busyPoll_ends_of_not_busy {s : State} (hi : s.inputs = [.poll .busy 0 []]) (hs : s.busy = false) :
    ∃ u, Runs 1 s u ∧ BusyPollEnded u := by
  have hfield : fieldValue s.platform .busy (readReg .status s) = 0 := by rw [fieldValue_busy, hs]; rfl
  refine ⟨_, (runs_succ 0 s _).2 ⟨_, step_poll_leaves hi hfield, (runs_zero _ _).2 rfl⟩, hs, rfl, _, rfl, ?_⟩
  simpa [fieldValue, fieldReg] using hfield

/-- A read while the block is busy and the engine's turn after it bring the loop back one turn nearer to its end. -/
theorem busyPoll_repeats_of_busy {n : Nat} {s : State} (hi : s.inputs = [.poll .busy 0 []]) (hs : s.busy = true)
    (h : s.EndsWithin (n + 1)) : ∃ t, Runs 2 s t ∧ t.inputs = [.poll .busy 0 []] ∧ t.EndsWithin n := by
  have hfield : fieldValue s.platform .busy (readReg .status s) ≠ 0 := by rw [fieldValue_busy, hs]; decide
  have hturn := engineTurn_advances
    ((h.reply (.reg .status (readReg .status s))).withInputs [.poll .busy 0 []]) hs
  refine ⟨_, ?_, hturn.inputs, hturn.ends⟩
  exact (runs_succ 1 s _).2 ⟨_, step_poll_repeats hi hfield,
    (runs_succ 0 _ _).2 ⟨_, step_of_engineNext (.inr rfl), (runs_zero _ _).2 rfl⟩⟩

/-- The loop on BUSY makes at most one read more than the engine takes turns. -/
theorem busyPoll_ends {n : Nat} {s : State} (hi : s.inputs = [.poll .busy 0 []]) (h : s.EndsWithin n) :
    ∃ k u, Runs k s u ∧ k ≤ 2 * n + 1 ∧ BusyPollEnded u := by
  induction n generalizing s with
  | zero =>
    obtain ⟨u, hrun, hend⟩ := busyPoll_ends_of_not_busy hi h.not_busy
    exact ⟨1, u, hrun, le_refl 1, hend⟩
  | succ n ih =>
    cases hs : s.busy with
    | false =>
      obtain ⟨u, hrun, hend⟩ := busyPoll_ends_of_not_busy hi hs
      exact ⟨1, u, hrun, by omega, hend⟩
    | true =>
      obtain ⟨t, hrun, hti, ht⟩ := busyPoll_repeats_of_busy hi hs h
      obtain ⟨k, u, hrest, hk, hend⟩ := ih hti ht
      exact ⟨2 + k, u, runs_append hrun hrest, by omega, hend⟩

end Sys2Proof.Machine
end

section
/-! PROOFS. The statements of the family 30_encoding.md. -/

namespace Sys2Proof.Machine

open Sys2Proof Config

/-- Settles O60: one read leaves the loop or repeats it, and every repetition of the loop on BUSY gives the engine a
turn, of which an accepted command has no more than its bound. -/
theorem pollEndsWhenTheFieldMatches : Obligations.PollEndsWhenTheFieldMatches := by
  refine ⟨fun s f v gaps rest w hi hw => ?_, fun i s t hi hs hexec hbusy => ?_⟩
  · subst hw
    exact ⟨step_poll_leaves hi, step_poll_repeats hi⟩
  · have hstart := exec_advances hexec hs hbusy
    obtain ⟨k, u, hrun, hk, hend⟩ := busyPoll_ends (hstart.inputs.trans hi) hstart.ends
    have hbound := turnBound_le i s.latch.sLen
    exact ⟨k, u, hrun, by omega, hend⟩

/-- Settles O1, word by word. -/
theorem wordsOfTheCommandMapDecode : Obligations.WordsOfTheCommandMapDecode :=
  ⟨rfl, rfl, rfl, rfl, rfl, rfl, rfl, rfl, rfl, rfl⟩

/-- Settles O2, from the two fields of an encoded word. -/
theorem encodedCommandDecodesToItself : Obligations.EncodedCommandDecodesToItself :=
  fun i _ => (decodeCmd_eq_ok_iff _ i).2 (encodeCmd_fields i)

/-- Settles O3: a word is a command's exactly when its value is the command's code. -/
theorem legalWordsAreExactlyFour : Obligations.LegalWordsAreExactlyFour := by
  intro v
  refine ⟨decodeCmd_eq_ok_iff_toNat v .encode, decodeCmd_eq_ok_iff_toNat v .decode,
    decodeCmd_eq_ok_iff_toNat v .minenc, decodeCmd_eq_ok_iff_toNat v .mindec, ?_⟩
  simp only [decodeCmd_eq_ok_iff_toNat, exists_opCode_toNat_eq_iff]
  omega

end Sys2Proof.Machine
end

section
/-! PROOFS. What an engine turn shows: the engine registers, RESULT and the flags after it are told by one of three
outcomes, and which one it is depends on the platform, the engine registers and the source bytes alone
(40_command_issue.md R117). -/

namespace Sys2Proof.Machine

open Sys2Proof Config

/-! ### Outcomes of a turn -/

/-- The part of a state that R117 speaks of: the engine registers, RESULT and the flags. -/
structure EngineView where
  engine : Engine
  result : Word
  busy   : Bool
  done   : Bool
  fault  : FaultCode

/-- The engine's part of a state. -/
def State.view (s : State) : EngineView := ⟨s.engine, s.result, s.busy, s.done, s.fault⟩

/-- How a turn ends: the engine goes on with new registers, it finishes (R110), or an access was refused
(60_exceptions.md R207). -/
inductive TurnOutcome where
  | goesOn (e : Engine)
  | finishes (v : Nat)
  | refused

/-- The engine's part after a turn of this outcome. -/
def TurnOutcome.apply : TurnOutcome → EngineView → EngineView
  | .goesOn e, x => { x with engine := e }
  | .finishes v, x => ⟨.idle, BitVec.ofNat 32 v, false, true, x.fault⟩
  | .refused, x => ⟨.idle, 0, false, false, if x.fault = .none then .busError else x.fault⟩

/-- BUSY falls only where the engine becomes IDLE. -/
theorem TurnOutcome.apply_busy (o : TurnOutcome) (x : EngineView) (h : (o.apply x).engine ≠ .idle) :
    (o.apply x).busy = x.busy := by
  cases o with
  | goesOn e => rfl
  | finishes v => exact absurd rfl h
  | refused => exact absurd rfl h

theorem State.view_eq_iff (s t : State) : t.view = s.view ↔ t.engine = s.engine ∧ SameFlags s t := by
  simp [State.view, SameFlags]

/-! ### Operations of the engine's side -/

/-- The two states have the same platform and the same bytes in the source buffer. -/
structure AgreeOnSource (l : Latched) (s₁ s₂ : State) : Prop where
  platform : s₂.platform = s₁.platform
  bytes : ∀ k, k < l.sLen → s₂.byteAt (l.sBase + k) = s₁.byteAt (l.sBase + k)

theorem AgreeOnSource.logAccess {l : Latched} {s₁ s₂ : State} (h : AgreeOnSource l s₁ s₂) (k : AccessKind) (a : Nat)
    (b : Byte) : AgreeOnSource l (s₁.logAccess k a b) (s₂.logAccess k a b) := ⟨h.platform, h.bytes⟩

theorem AgreeOnSource.setByte {l : Latched} {s₁ s₂ : State} (h : AgreeOnSource l s₁ s₂) (a : Nat) (b : Byte) :
    AgreeOnSource l (s₁.setByte a b) (s₂.setByte a b) :=
  ⟨h.platform, fun k hk => by rw [State.byteAt_setByte, State.byteAt_setByte, h.bytes k hk]⟩

/-- From `s₁` to `t₁` and from `s₂` to `t₂` the engine's part changes by one and the same outcome. -/
def SameOutcome (s₁ t₁ s₂ t₂ : State) : Prop :=
  ∃ o : TurnOutcome, t₁.view = o.apply s₁.view ∧ t₂.view = o.apply s₂.view

/-- An operation whose outcome depends on the platform and the source bytes alone. -/
def SourceBound (l : Latched) (f : State → State) : Prop :=
  ∀ s₁ s₂, AgreeOnSource l s₁ s₂ → SameOutcome s₁ (f s₁) s₂ (f s₂)

section Operations

variable {l : Latched}

theorem SourceBound.ite {c : Prop} [Decidable c] {f g : State → State} (hf : c → SourceBound l f)
    (hg : ¬ c → SourceBound l g) : SourceBound l fun s => if c then f s else g s := by
  split_ifs with hc
  · exact hf hc
  · exact hg hc

theorem sourceBound_setEngine (e : Engine) : SourceBound l fun s => s.setEngine e :=
  fun _ _ _ => ⟨.goesOn e, rfl, rfl⟩

theorem State.view_drawBytes (s : State) (base size : Nat) : (s.drawBytes base size).view = s.view := by
  simp [State.view]

theorem State.view_finishBuffers (s : State) (l : Latched) (v : Nat) :
    (s.finishBuffers l v).view = TurnOutcome.apply (.finishes v) s.view := by
  simp [State.view, TurnOutcome.apply]

theorem State.view_busError (s : State) (l : Latched) :
    (s.busError l).view = TurnOutcome.apply .refused s.view :=
  (s.raiseFault .busError).view_drawBytes l.dBase l.dCap

theorem sourceBound_finishBuffers (v : Nat) : SourceBound l fun s => s.finishBuffers l v :=
  fun s₁ s₂ _ => ⟨.finishes v, s₁.view_finishBuffers l v, s₂.view_finishBuffers l v⟩

theorem sourceBound_busError : SourceBound l fun s => s.busError l :=
  fun s₁ s₂ _ => ⟨.refused, s₁.view_busError l, s₂.view_busError l⟩

theorem sourceBound_memRead {k : Nat} (hk : k < l.sLen) {rest : Byte → State → State}
    (h : ∀ b, SourceBound l (rest b)) : SourceBound l fun s => s.memRead l (l.sBase + k) rest := by
  intro s₁ s₂ hs
  simp only [State.memRead, hs.platform, hs.bytes k hk]
  split_ifs
  · exact h _ _ _ (hs.logAccess _ _ _)
  · exact sourceBound_busError s₁ s₂ hs

theorem sourceBound_memWrite (a : Nat) (b : Byte) {rest : State → State} (h : SourceBound l rest) :
    SourceBound l fun s => s.memWrite l a b rest := by
  intro s₁ s₂ hs
  simp only [State.memWrite, hs.platform]
  split_ifs
  · exact h _ _ ((hs.setByte a b).logAccess _ _ _)
  · exact sourceBound_busError s₁ s₂ hs

end Operations

/-! ### The engine's turn -/

theorem encFinal_sourceBound (r : EncRegs) : SourceBound r.args (encFinal r) :=
  .ite (fun _ => sourceBound_finishBuffers 0)
    fun _ => sourceBound_memWrite _ _ (sourceBound_memWrite _ _ (sourceBound_finishBuffers _))

theorem encStep_sourceBound (r : EncRegs) : SourceBound r.args (encStep r) :=
  .ite
    (fun hlen => .ite (fun _ => sourceBound_finishBuffers 0)
      fun _ => .ite (fun _ => sourceBound_memWrite _ _ (sourceBound_setEngine _))
        fun _ => sourceBound_memRead hlen fun _ =>
          .ite (fun _ => sourceBound_memWrite _ _ (sourceBound_setEngine _))
            fun _ => sourceBound_memWrite _ _ (sourceBound_setEngine _))
    fun _ => encFinal_sourceBound r

theorem decFirstStep_sourceBound (r : FirstRegs) : SourceBound r.args (decFirstStep r) :=
  .ite (fun _ => sourceBound_finishBuffers 0)
    fun hlen => sourceBound_memRead (Nat.pos_of_ne_zero hlen) fun _ => sourceBound_setEngine _

theorem decTerminator_sourceBound (r : ScanRegs) : SourceBound r.args (decTerminator r) :=
  .ite (fun _ => sourceBound_finishBuffers _) fun _ => sourceBound_finishBuffers _

theorem decCode_sourceBound (r : ScanRegs) (b : Byte) : SourceBound r.args (decCode r b) :=
  .ite (fun _ => sourceBound_memWrite _ _ (sourceBound_setEngine _)) fun _ => sourceBound_setEngine _

theorem decScanStep_sourceBound (r : ScanRegs) : SourceBound r.args (decScanStep r) :=
  .ite
    (fun hlen => sourceBound_memRead hlen fun b =>
      .ite (fun _ => decTerminator_sourceBound r)
        fun _ => .ite (fun _ => sourceBound_finishBuffers 0)
          fun _ => .ite (fun _ => decCode_sourceBound r b)
            fun _ => sourceBound_memWrite _ _ (sourceBound_setEngine _))
    fun _ => sourceBound_finishBuffers 0

/-- A sizing command reads its latched length and `ADDR_W` alone (43_sizing.md R180, R182). -/
theorem sizeStep_sameOutcome (op : Sizing) (l : Latched) {s₁ s₂ : State} (h : s₂.platform = s₁.platform) :
    SameOutcome s₁ (sizeStep op l s₁) s₂ (sizeStep op l s₂) := by
  cases op with
  | minenc => exact ⟨.finishes (minencResult s₁.platform l.sLen), rfl, by rw [← h]; rfl⟩
  | mindec => exact ⟨.finishes (minDecodedSize l.sLen), rfl, rfl⟩

/-- R117: the turns of two states with one platform, one engine and one content of the active source have one
outcome. -/
theorem engineTurn_sameOutcome {s₁ s₂ : State} (hp : s₂.platform = s₁.platform) (he : s₂.engine = s₁.engine)
    (hbytes : ∀ l, s₁.engine.buffers = some l → AgreeOnSource l s₁ s₂) :
    SameOutcome s₁ (engineTurn s₁) s₂ (engineTurn s₂) := by
  cases he₁ : s₁.engine <;> rw [he₁] at he hbytes
  case idle =>
    rw [engineTurn_idle he₁, engineTurn_idle he]
    exact ⟨.goesOn .idle, by rw [← he₁]; rfl, by rw [← he]; rfl⟩
  case enc r =>
    rw [engineTurn_enc he₁, engineTurn_enc he]
    exact encStep_sourceBound r _ _ (hbytes _ rfl)
  case decFirst r =>
    rw [engineTurn_decFirst he₁, engineTurn_decFirst he]
    exact decFirstStep_sourceBound r _ _ (hbytes _ rfl)
  case decScan r =>
    rw [engineTurn_decScan he₁, engineTurn_decScan he]
    exact decScanStep_sourceBound r _ _ (hbytes _ rfl)
  case size op l =>
    rw [engineTurn_size he₁, engineTurn_size he]
    exact sizeStep_sameOutcome op l hp

/-- An engine that stays active after its turn leaves BUSY (10_state.md R32). -/
theorem engineTurn_busy_of_active {s : State} (h : (engineTurn s).engine ≠ .idle) :
    (engineTurn s).busy = s.busy := by
  obtain ⟨o, ho, -⟩ := engineTurn_sameOutcome (s₁ := s) rfl rfl fun _ _ => ⟨rfl, fun _ _ => rfl⟩
  have hbusy := o.apply_busy s.view
  rw [← ho] at hbusy
  exact hbusy h

/-! ### The run to the end of a command (40_command_issue.md R116) -/

/-- With no event left, a command with at most `n` turns left is over after at most `n` steps. -/
theorem runs_to_end {n : Nat} {s : State} (hi : s.inputs = []) (hbusy : s.engine ≠ .idle → s.busy = true)
    (h : s.EndsWithin n) : ∃ k u, Runs k s u ∧ k ≤ n ∧ u.busy = false ∧ u.engine = .idle := by
  induction n generalizing s with
  | zero =>
    cases h with
    | ended hb hidle => exact ⟨0, s, (runs_zero s s).2 rfl, le_refl 0, hb, hidle⟩
    | active hactive hle => exact absurd hle (Engine.turnsLeft_pos hactive).not_ge
  | succ n ih =>
    cases h with
    | ended hb hidle => exact ⟨0, s, (runs_zero s s).2 rfl, Nat.zero_le _, hb, hidle⟩
    | active hactive hle =>
      have hs := hbusy hactive
      have hturn := engineTurn_advances (.active hactive hle) hs
      obtain ⟨k, u, hrun, hk, hend⟩ := ih (hturn.inputs.trans hi)
        (fun ha => (engineTurn_busy_of_active ha).trans hs) hturn.ends
      exact ⟨k + 1, u, (runs_succ k s u).2 ⟨_, step_of_no_inputs hi, hrun⟩, Nat.succ_le_succ hk, hend⟩

end Sys2Proof.Machine
end

section
/-! PROOFS. The issue of a command case by case, and the host's word accesses register by register. -/

namespace Sys2Proof.Machine

open Sys2Proof Config

/-! ### The first check that fails (60_exceptions.md R209) -/

section Checks

variable {p : Platform} {l : Latched}

theorem bufferFault_of_null (h : l.sBase = 0 ∨ l.dBase = 0) : bufferFault p l = some .nullAddr :=
  if_pos ((nullBase_iff l).2 h)

theorem bufferFault_of_wraps (hs : l.sBase ≠ 0) (hd : l.dBase ≠ 0)
    (h : memSize p < l.sBase + l.sLen ∨ memSize p < l.dBase + l.dCap) : bufferFault p l = some .range := by
  have hnull := mt (nullBase_iff l).1 (not_or.2 ⟨hs, hd⟩)
  rw [bufferFault, if_neg hnull, if_pos ((wrapsAround_iff p l).2 h)]

theorem bufferFault_of_overlaps (hs : l.sBase ≠ 0) (hd : l.dBase ≠ 0) (hsrc : l.sBase + l.sLen ≤ memSize p)
    (hdst : l.dBase + l.dCap ≤ memSize p) (h : overlapping l = true) : bufferFault p l = some .overlap := by
  have hnull := mt (nullBase_iff l).1 (not_or.2 ⟨hs, hd⟩)
  have hwraps := mt (wrapsAround_iff p l).1 (not_or.2 ⟨hsrc.not_gt, hdst.not_gt⟩)
  rw [bufferFault, if_neg hnull, if_neg hwraps, if_pos h]

end Checks

/-! ### Issue (40_command_issue.md R102 to R109) -/

section Issue

variable {s : State}

theorem issueBuffers_of_fault {init : Latched → Engine} (ht : s.takesCommand = true) {c : FaultCode}
    (hc : bufferFault s.platform s.latch = some c) : issueBuffers init s = s.clearResult.raiseFault c := by
  simp [issueBuffers, ht, hc]

theorem issueSizing_of_takesCommand {op : Sizing} (ht : s.takesCommand = true) :
    issueSizing op s = s.clearResult.start (.size op s.latch) := if_pos ht

theorem issueIllegal_of_takesCommand (ht : s.takesCommand = true) : issueIllegal s = s.raiseFault .illegalCmd :=
  if_pos ht

theorem State.raiseFault_faultedWith (h : s.fault = .none) (c : FaultCode) : FaultedWith c (s.raiseFault c) :=
  ⟨if_pos h, rfl, rfl, rfl, rfl⟩

theorem exec_of_bufferFault {i : Instr} (hi : i = .encode ∨ i = .decode) (ht : s.takesCommand = true) {c : FaultCode}
    (hc : bufferFault s.platform s.latch = some c) : exec i s = .next (s.clearResult.raiseFault c) := by
  rcases hi with rfl | rfl <;> exact congrArg Host.Outcome.next (issueBuffers_of_fault ht hc)

theorem exec_sizing {i : Instr} {op : Sizing} (hi : i = .minenc ∧ op = .minenc ∨ i = .mindec ∧ op = .mindec)
    (ht : s.takesCommand = true) : exec i s = .next (s.clearResult.start (.size op s.latch)) := by
  rcases hi with ⟨rfl, rfl⟩ | ⟨rfl, rfl⟩ <;> exact congrArg Host.Outcome.next (issueSizing_of_takesCommand ht)

/-- A check of the latched values that fails stops ENCODE and DECODE with its code and leaves everything else, and the
sizing commands start all the same (R106 to R108, 43_sizing.md R180, R182). -/
theorem exec_of_failed_check (hfault : s.fault = .none) (hbusy : s.busy = false) {c : FaultCode}
    (hc : bufferFault s.platform s.latch = some c) (i : Instr) :
    (i = .encode ∨ i = .decode →
      ∃ t, exec i s = .next t ∧ FaultedWith c t ∧ SameHostSide s t ∧ SameMemory s t ∧
        t.trace = s.trace ∧ t.inputs = s.inputs) ∧
    (i = .minenc ∨ i = .mindec → ∃ t, exec i s = .next t ∧ t.fault = .none ∧ t.busy = true) := by
  have ht := s.takesCommand_iff.2 ⟨hfault, hbusy⟩
  constructor
  · intro hi
    have hexec := exec_of_bufferFault hi ht hc
    obtain ⟨hside, hmem, -, -, htrace, hinputs, -⟩ := issueFrame i s _ hexec
    exact ⟨_, hexec, s.clearResult.raiseFault_faultedWith hfault c, hside, hmem, htrace, hinputs⟩
  · rintro (rfl | rfl)
    · exact ⟨_, exec_sizing (.inl ⟨rfl, rfl⟩) ht, hfault, rfl⟩
    · exact ⟨_, exec_sizing (.inr ⟨rfl, rfl⟩) ht, hfault, rfl⟩

/-- A CMD write always answers a next state. -/
theorem exists_cmdWrite_eq_next (v : Word) (s : State) : ∃ t, cmdWrite v s = .next t := by
  unfold cmdWrite
  split
  · next i _ => cases i <;> exact ⟨_, rfl⟩
  · exact ⟨_, rfl⟩

/-- R102, R103. -/
theorem cmdWrite_ignored (h : s.takesCommand = false) (v : Word) : cmdWrite v s = .next s := by
  obtain ⟨t, ht⟩ := exists_cmdWrite_eq_next v s
  rw [ht, (cmdWrite_effect ht).eq_self h]

theorem cmdWrite_of_illegal {v : Word} (h : ∀ i, decodeCmd v ≠ .ok i) : cmdWrite v s = .next (issueIllegal s) := by
  cases hd : decodeCmd v with
  | ok i => exact absurd hd (h i)
  | error e => simp [cmdWrite, hd]

end Issue

/-! ### Word accesses to the register window (10_state.md R20, 40_command_issue.md R100, R101) -/

/-- In a list that gives each register its offset, a pair is a register with its offset. -/
theorem eq_regOffset_of_mem {m : List (Reg × Nat)} (hm : ∀ x ∈ m, x.2 = regOffset x.1) {r : Reg} {off : Nat}
    (h : (r, off) ∈ m) : off = regOffset r := hm _ h

theorem step_regWr {s : State} {r : Reg} {v : Word} {rest : List Event}
    (h : s.inputs = .regWr (s.platform.regBase + regOffset r) 4 v :: rest) :
    step s = regWrite r v (s.withInputs rest) :=
  (step_of_event h).trans (takeEvent_regWr (s := s.withInputs rest) (regAt_regOffset _ r))

theorem step_regRd {s : State} {r : Reg} {rest : List Event}
    (h : s.inputs = .regRd (s.platform.regBase + regOffset r) 4 :: rest) :
    step s = .next ((s.withInputs rest).reply (.reg r (readReg r s))) := by
  simp [step_of_event h, takeEvent]

/-- What a host reads after a write: the low `ADDR_W` bits of the word (10_state.md R23 to R26). -/
theorem readReg_put_same {r : Reg} (h : r = .srcAddr ∨ r = .srcLen ∨ r = .dstAddr ∨ r = .dstCap) (s : State)
    (v : Word) : readReg r (s.withArgs (s.args.put r (fieldWord s.platform v))) = fieldWord s.platform v := by
  rcases h with rfl | rfl | rfl | rfl <;> exact fieldWord_fieldWord s.platform v

/-- Every other register reads a field that the write leaves. -/
theorem readReg_put_of_ne {r r' : Reg} (h : r' ≠ r) (s : State) (w : Word) :
    readReg r' (s.withArgs (s.args.put r w)) = readReg r' s := by
  cases r <;> cases r' <;> trivial

/-- STATUS as a number (10_state.md R22). -/
theorem statusWord_toNat (s : State) :
    s.statusWord.toNat =
      (if s.busy then 1 else 0) + (if s.done then 2 else 0) + (if s.fault = .none then 0 else 4) := by
  have hfaulted : (if s.fault = .none then 0 else 4) = if s.faulted then 4 else 0 := by
    simp [State.faulted]
  rw [hfaulted, State.statusWord]
  generalize s.busy = b, s.done = d, s.faulted = f
  revert b d f
  decide

end Sys2Proof.Machine
end

section
/-! PROOFS. The statements of the family 40_command_issue.md. -/

namespace Sys2Proof.Machine

open Sys2Proof Config

/-- Settles O47: the two turns have one outcome, and it acts on one engine view. -/
theorem engineStepDependsOnSourceOnly : Obligations.EngineStepDependsOnSourceOnly := by
  intro s₁ s₂ hp he hflags hbytes
  obtain ⟨o, h₁, h₂⟩ := engineTurn_sameOutcome hp he fun l hl =>
    ⟨hp, fun k hk => hbytes l hl _ (Nat.le_add_right _ _) (Nat.add_lt_add_left hk _)⟩
  have hview : s₂.view = s₁.view := (s₁.view_eq_iff s₂).2 ⟨he, hflags⟩
  exact (State.view_eq_iff _ _).1 (by rw [h₁, h₂, hview])

/-- Settles O50: an accepted command starts within its bound of turns, and a sizing command needs a step since it starts
busy. -/
theorem acceptedCommandEndsWithinBound : Obligations.AcceptedCommandEndsWithinBound := by
  intro i s t hi hs hexec hbusy
  have hstart := exec_advances hexec hs hbusy
  obtain ⟨k, u, hrun, hk, hub, hidle⟩ := runs_to_end (hstart.inputs.trans hi) (fun _ => hbusy) hstart.ends
  have hpos : k ≠ 0 := by
    rintro rfl
    obtain rfl := (runs_zero t u).1 hrun
    exact Bool.false_ne_true (hub.symm.trans hbusy)
  refine ⟨k, u, hrun, hub, hidle, ?_, ?_, ?_⟩
  · rintro rfl; exact hk
  · rintro rfl; exact hk
  · rintro (rfl | rfl) <;> exact Nat.le_antisymm hk (Nat.pos_of_ne_zero hpos)

/-- Settles O5: the write reaches CMD of a block that takes no command. -/
theorem cmdWriteIgnoredWhileFaultedOrBusy : Obligations.CmdWriteIgnoredWhileFaultedOrBusy := by
  intro s v rest hinputs hquiet
  have ht : (s.withInputs rest).takesCommand = false := by
    rw [← Bool.not_eq_true, State.takesCommand_iff]
    rintro ⟨hfault, hbusy⟩
    rcases hquiet with h | h
    · exact h hfault
    · exact Bool.false_ne_true (hbusy.symm.trans h)
  exact (step_regWr (r := .cmd) hinputs).trans (cmdWrite_ignored ht v)

/-- Settles O6: the word decodes to no command, so the write is fault entry alone. -/
theorem illegalWordRaisesIllegalCmd : Obligations.IllegalWordRaisesIllegalCmd := by
  intro s v rest hinputs hfault hbusy hillegal
  have ht : (s.withInputs rest).takesCommand = true := (State.takesCommand_iff _).2 ⟨hfault, hbusy⟩
  refine ⟨(s.withInputs rest).raiseFault .illegalCmd, ?_, State.raiseFault_faultedWith hfault _,
    SameHostSide.refl s, ⟨fun _ => rfl, rfl⟩, rfl, rfl⟩
  calc step s = cmdWrite v (s.withInputs rest) := step_regWr (r := .cmd) hinputs
    _ = .next (issueIllegal (s.withInputs rest)) := cmdWrite_of_illegal hillegal
    _ = .next ((s.withInputs rest).raiseFault .illegalCmd) := by rw [issueIllegal_of_takesCommand ht]

/-- Settles O9: no check stands before the start of a sizing command. -/
theorem sizingIsAcceptedWithoutChecks : Obligations.SizingIsAcceptedWithoutChecks := by
  intro s i op hi hfault hbusy
  have hexec := exec_sizing hi (s.takesCommand_iff.2 ⟨hfault, hbusy⟩)
  obtain ⟨hside, hmem, -, -, htrace, hinputs, -⟩ := issueFrame i s _ hexec
  exact ⟨_, hexec, rfl, rfl, rfl, rfl, hfault, hside, hmem, htrace, hinputs⟩

/-- Settles O10: the null check is the first. -/
theorem nullBaseRaisesNullAddr : Obligations.NullBaseRaisesNullAddr :=
  fun _ i hfault hbusy hnull => exec_of_failed_check hfault hbusy (bufferFault_of_null hnull) i

/-- Settles O11: the range check follows a passed null check. -/
theorem wrappingBufferRaisesRange : Obligations.WrappingBufferRaisesRange := by
  rintro s i _ _ _ _ rfl rfl rfl rfl hfault hbusy hsrc hdst hwraps
  exact exec_of_failed_check hfault hbusy (bufferFault_of_wraps hsrc hdst hwraps) i

/-- Settles O12: the overlap check follows the passed null and range checks. -/
theorem intersectingBuffersRaiseOverlap : Obligations.IntersectingBuffersRaiseOverlap := by
  rintro s i _ _ _ _ rfl rfl rfl rfl hfault hbusy hsrc hdst hsrcFits hdstFits hlen hcap hbelow habove
  have hoverlap : overlapping s.latch = true := (overlapping_iff _).2 ⟨hlen, hcap, hbelow, habove⟩
  exact exec_of_failed_check hfault hbusy (bufferFault_of_overlaps hsrc hdst hsrcFits hdstFits hoverlap) i

/-- Settles O31: the write puts the field's word into its register and leaves the rest of the state. -/
theorem argumentWriteTakesEffect : Obligations.ArgumentWriteTakesEffect := by
  intro s r off v rest hmem hinputs
  obtain rfl := eq_regOffset_of_mem (by decide) hmem
  have harg : r = .srcAddr ∨ r = .srcLen ∨ r = .dstAddr ∨ r = .dstCap := by
    simp only [List.mem_cons, Prod.mk.injEq, List.not_mem_nil] at hmem
    tauto
  have hne : r ≠ .cmd := by rintro rfl; simp at harg
  refine ⟨_, (step_regWr hinputs).trans (regWrite_of_ne_cmd hne v _), ?_, fun r' hr' => ?_, ⟨rfl, rfl, rfl, rfl⟩,
    ⟨fun _ => rfl, rfl⟩, rfl, rfl, rfl, rfl, rfl⟩
  · rw [readReg_put_same harg, toNat_fieldWord]
    rfl
  · rw [readReg_put_of_ne hr', readReg_withInputs]

/-- Settles O32, register by register. -/
theorem readOnlyWriteIsIgnored : Obligations.ReadOnlyWriteIsIgnored := by
  intro s off v rest hoff hinputs
  simp only [List.mem_cons, List.not_mem_nil, or_false] at hoff
  rcases hoff with rfl | rfl | rfl
  · exact step_regWr (r := .status) hinputs
  · exact step_regWr (r := .result) hinputs
  · exact step_regWr (r := .fault) hinputs

/-- Settles O33: the answer is the register's word, which each register gives from its own fields. -/
theorem registerReadReturnsFields : Obligations.RegisterReadReturnsFields := by
  intro s r off rest hmem hinputs
  obtain rfl := eq_regOffset_of_mem (by decide) hmem
  refine ⟨readReg r s, step_regRd hinputs, ?_, ?_, ?_, ?_, ?_, ?_, ?_, ?_⟩ <;> rintro rfl
  · rfl
  · exact statusWord_toNat s
  · exact toNat_fieldWord _ _
  · exact toNat_fieldWord _ _
  · exact toNat_fieldWord _ _
  · exact toNat_fieldWord _ _
  · exact toNat_fieldWord _ _
  · change (faultWord s.fault).toNat = _
    cases s.fault <;> rfl

end Sys2Proof.Machine
end

section
/-! PROOFS. The encoder's turn rule by rule (41_encode.md R123 to R127), the acceptance of a command with buffers, and
what a turn that writes one byte leaves. -/

namespace Sys2Proof.Machine

open Sys2Proof Config

/-! ### Acceptance (40_command_issue.md R105 to R109) -/

theorem bufferFault_eq_none {p : Platform} {l : Latched} (hs : l.sBase ≠ 0) (hd : l.dBase ≠ 0)
    (hsrc : l.sBase + l.sLen ≤ memSize p) (hdst : l.dBase + l.dCap ≤ memSize p)
    (hapart : l.sLen = 0 ∨ l.dCap = 0 ∨ l.dBase + l.dCap ≤ l.sBase ∨ l.sBase + l.sLen ≤ l.dBase) :
    bufferFault p l = none := by
  refine (bufferFault_eq_none_iff p l).2 ⟨?_, ?_, ?_⟩ <;> rw [← Bool.not_eq_true]
  · rw [nullBase_iff]; omega
  · rw [wrapsAround_iff]; omega
  · rw [overlapping_iff]; omega

theorem issueBuffers_accepted {init : Latched → Engine} {s : State} (ht : s.takesCommand = true)
    (hc : bufferFault s.platform s.latch = none) : issueBuffers init s = s.clearResult.start (init s.latch) := by
  simp [issueBuffers, ht, hc]

theorem exec_encode_accepted {s : State} (hfault : s.fault = .none) (hbusy : s.busy = false)
    (hc : bufferFault s.platform s.latch = none) :
    exec .encode s = .next (s.clearResult.start (encoderInit s.latch)) :=
  congrArg Host.Outcome.next (issueBuffers_accepted (s.takesCommand_iff.2 ⟨hfault, hbusy⟩) hc)

/-! ### The encoder's turn -/

section Turn

variable {r : EncRegs} {s : State}

theorem step_of_encStep {t : State} (hnext : s.engineNext) (he : s.engine = .enc r)
    (hturn : encStep r (s.withInputs s.inputs.tail) = t) : step s = .next t := by
  rw [step_of_engineNext hnext, engineTurn_enc (s := s.withInputs s.inputs.tail) he, hturn]

/-- R123, and R127 without room: a full destination ends the command whatever is left of the payload. -/
theorem encStep_of_full_destination (hcap : r.args.dCap ≤ r.w) : encStep r s = s.finishBuffers r.args 0 := by
  unfold encStep
  split_ifs
  · rfl
  · exact if_pos hcap

/-- A full block closes with code 255, and no payload byte is read (R124). -/
theorem encStep_of_full_block (hlen : r.inp < r.args.sLen) (hcap : r.w < r.args.dCap) (hspan : r.w - r.c = fullSpan)
    (hwrite : memOK s.platform .write (r.args.dBase + r.c) = true) :
    encStep r s = ((s.setByte (r.args.dBase + r.c) fullCode).logAccess .write (r.args.dBase + r.c) fullCode).setEngine
      (.enc { r with c := r.w, w := r.w + 1 }) := by
  rw [encStep, if_pos hlen, if_neg hcap.not_ge, if_pos hspan]
  exact State.memWrite_admitted hwrite

/-- The read that R125 and R126 share. -/
theorem encStep_of_open_block (hlen : r.inp < r.args.sLen) (hcap : r.w < r.args.dCap) (hspan : r.w - r.c ≠ fullSpan)
    (hread : memOK s.platform .read (r.args.sBase + r.inp) = true) {b : Byte}
    (hb : s.byteAt (r.args.sBase + r.inp) = b) :
    encStep r s = if b = 0 then encZeroClose r (s.logAccess .read (r.args.sBase + r.inp) b)
      else encCopy r b (s.logAccess .read (r.args.sBase + r.inp) b) := by
  subst hb
  rw [encStep, if_pos hlen, if_neg hcap.not_ge, if_neg hspan]
  exact State.memRead_admitted hread

/-- A payload zero closes the block with its span (R125). -/
theorem encZeroClose_admitted (hwrite : memOK s.platform .write (r.args.dBase + r.c) = true) :
    encZeroClose r s =
      ((s.setByte (r.args.dBase + r.c) (closeCode r)).logAccess .write (r.args.dBase + r.c) (closeCode r)).setEngine
        (.enc { r with c := r.w, w := r.w + 1, inp := r.inp + 1 }) :=
  State.memWrite_admitted hwrite

/-- Any other payload byte is copied to the cursor (R126). -/
theorem encCopy_admitted {b : Byte} (hwrite : memOK s.platform .write (r.args.dBase + r.w) = true) :
    encCopy r b s = ((s.setByte (r.args.dBase + r.w) b).logAccess .write (r.args.dBase + r.w) b).setEngine
      (.enc { r with w := r.w + 1, inp := r.inp + 1 }) :=
  State.memWrite_admitted hwrite

/-- With the payload at its end and room for the terminator, the last block closes and the command finishes (R127). -/
theorem encStep_of_payload_end (hlen : ¬ r.inp < r.args.sLen) (hcap : r.w < r.args.dCap)
    (hcode : memOK s.platform .write (r.args.dBase + r.c) = true)
    (hterm : memOK s.platform .write (r.args.dBase + r.w) = true) :
    encStep r s =
      ((((s.setByte (r.args.dBase + r.c) (closeCode r)).logAccess .write (r.args.dBase + r.c) (closeCode r)).setByte
        (r.args.dBase + r.w) terminator).logAccess .write (r.args.dBase + r.w) terminator).finishBuffers r.args
          (r.w + 1) := by
  rw [encStep, if_neg hlen, encFinal, if_neg hcap.not_ge]
  exact (State.memWrite_admitted hcode).trans (State.memWrite_admitted hterm)

/-- A block that is not over-full closes with its span, unreduced (R131). -/
theorem closeCode_toNat (h : r.w - r.c ≤ 255) : (closeCode r).toNat = r.w - r.c := by
  rw [closeCode, BitVec.toNat_ofNat, Nat.mod_eq_of_lt (by omega)]

end Turn

/-! ### One write and new engine registers -/

/-- Where `t` differs from `s` in the engine's records and the coming events alone, one write and new engine registers
change the written byte alone of memory, the flags and the host's side. -/
theorem writeByte_frame {s t : State} (hside : SameHostSide s t) (hflags : SameFlags s t) (hmem : SameMemory s t)
    (a : Nat) (b : Byte) (e : Engine) :
    (((t.setByte a b).logAccess .write a b).setEngine e).byteAt a = b ∧
      SameMemoryBut a s (((t.setByte a b).logAccess .write a b).setEngine e) ∧
      SameFlags s (((t.setByte a b).logAccess .write a b).setEngine e) ∧
      SameHostSide s (((t.setByte a b).logAccess .write a b).setEngine e) := by
  obtain ⟨hbytes, hdraws⟩ := hmem
  refine ⟨?_, ⟨fun x hx => ?_, hdraws⟩, hflags, hside⟩
  · simp [State.byteAt_setByte]
  · simp [State.byteAt_setByte, hx, hbytes]

end Sys2Proof.Machine
end

section
/-! PROOFS. Whole runs of a command with buffers: what every step of a run keeps, the bytes of the source, what the
command has written into its destination, and what its end leaves (40_command_issue.md R112, R113). -/

namespace Sys2Proof.Machine

open Sys2Proof Config

/-! ### Runs and the source buffer -/

/-- What every step keeps holds at the end of a run. -/
theorem Runs.keeps {P : State → Prop} (hstep : ∀ s t, P s → step s = .next t → P t) {k : Nat} {s u : State}
    (hrun : Runs k s u) (hs : P s) : P u := by
  induction k generalizing s with
  | zero =>
    obtain rfl := (runs_zero s u).1 hrun
    exact hs
  | succ k ih =>
    obtain ⟨t, ht, hrest⟩ := (runs_succ k s u).1 hrun
    exact ih hrest (hstep s t hs ht)

/-- The bytes of the source buffer from offset `k` on. -/
def State.sourceFrom (s : State) (l : Latched) (k : Nat) : List Byte := s.bytesAt (l.sBase + k) (l.sLen - k)

theorem State.bytesAt_succ (s : State) (base n : Nat) :
    s.bytesAt base (n + 1) = s.byteAt base :: s.bytesAt (base + 1) n := by
  simp [State.bytesAt, List.range_succ_eq_map, Function.comp_def, Nat.add_assoc, Nat.add_comm 1]

section Source

variable {s : State} {l : Latched} {k : Nat}

theorem State.sourceFrom_of_lt (hk : k < l.sLen) :
    s.sourceFrom l k = s.byteAt (l.sBase + k) :: s.sourceFrom l (k + 1) := by
  obtain ⟨n, hn⟩ : ∃ n, l.sLen - k = n + 1 := ⟨l.sLen - (k + 1), by omega⟩
  have hn' : l.sLen - (k + 1) = n := by omega
  rw [State.sourceFrom, State.sourceFrom, hn, hn', State.bytesAt_succ, Nat.add_assoc]

theorem State.sourceFrom_of_not_lt (hk : ¬ k < l.sLen) : s.sourceFrom l k = [] := by
  rw [State.sourceFrom, Nat.sub_eq_zero_of_le (not_lt.1 hk)]
  rfl

theorem State.not_lt_of_sourceFrom_eq_nil (h : s.sourceFrom l k = []) : ¬ k < l.sLen := by
  intro hk
  rw [State.sourceFrom_of_lt hk] at h
  exact List.cons_ne_nil _ _ h

theorem State.sourceFrom_eq_cons {b : Byte} {bs : List Byte} (h : s.sourceFrom l k = b :: bs) :
    k < l.sLen ∧ s.byteAt (l.sBase + k) = b ∧ s.sourceFrom l (k + 1) = bs := by
  have hk : k < l.sLen := by
    by_contra hk
    rw [State.sourceFrom_of_not_lt hk] at h
    exact List.cons_ne_nil _ _ h.symm
  rw [State.sourceFrom_of_lt hk] at h
  exact ⟨hk, List.cons.inj h⟩

end Source

/-! ### While the command runs -/

/-- From `s` to `t` a command with the buffers `l` has written `out` into its destination and done nothing else that
the host can see. -/
structure Wrote (l : Latched) (out : Written) (s t : State) : Prop where
  side : SameHostSide s t
  fault : t.fault = s.fault
  draws : t.draws = s.draws
  outside : SameOutside l.dBase l.dCap s t
  dest : ∀ j, j < l.dCap → t.byteAt (l.dBase + j) = (Written.at out j).getD (s.byteAt (l.dBase + j))

section Wrote

variable {l : Latched} {out : Written} {s t : State}

theorem Wrote.of_sameMemory (hside : SameHostSide s t) (hfault : t.fault = s.fault) (hmem : SameMemory s t) :
    Wrote l [] s t :=
  ⟨hside, hfault, hmem.2, fun a _ => hmem.1 a, fun j _ => hmem.1 (l.dBase + j)⟩

theorem Wrote.logAccess (h : Wrote l out s t) (k : AccessKind) (a : Nat) (b : Byte) :
    Wrote l out s (t.logAccess k a b) := { h with }

theorem Wrote.setEngine (h : Wrote l out s t) (e : Engine) : Wrote l out s (t.setEngine e) := { h with }

theorem Wrote.setByte (h : Wrote l out s t) {k : Nat} (hk : k < l.dCap) (b : Byte) :
    Wrote l ((k, b) :: out) s (t.setByte (l.dBase + k) b) where
  side := h.side
  fault := h.fault
  draws := h.draws
  outside a ha := by rw [State.byteAt_setByte, if_neg (by omega), h.outside a ha]
  dest j hj := by
    rw [State.byteAt_setByte, Written.at]
    by_cases hjk : j = k
    · simp [hjk]
    · rw [if_neg (by omega), if_neg (Ne.symm hjk), h.dest j hj]

/-- One write of the engine, with its record. -/
theorem Wrote.write (h : Wrote l out s t) {k : Nat} (hk : k < l.dCap) (b : Byte) :
    Wrote l ((k, b) :: out) s ((t.setByte (l.dBase + k) b).logAccess .write (l.dBase + k) b) :=
  (h.setByte hk b).logAccess _ _ _

/-- The source reads as before, since the checks of issue keep it apart from the destination. -/
theorem Wrote.source (h : Wrote l out s t) {p : Platform} (hl : l.checked p) {k : Nat} (hk : k < l.sLen) :
    t.byteAt (l.sBase + k) = s.byteAt (l.sBase + k) :=
  h.outside _ (hl.source_outside_dest (Nat.le_add_right _ _) (Nat.add_lt_add_left hk _))

end Wrote

/-! ### After its end -/

/-- From `s` to `t` a command with the buffers `l` has come to its end with the result and the bytes of `f`. -/
structure EndedWith (l : Latched) (f : Nat × Written) (s t : State) : Prop where
  finished : FinishedWith f.1 t
  fault : t.fault = s.fault
  side : SameHostSide s t
  outside : SameOutside l.dBase l.dCap s t
  written : f.1 ≠ 0 → ∀ j, j < l.dCap →
    t.byteAt (l.dBase + j) = (Written.at f.2 j).getD (s.byteAt (l.dBase + j))
  drawn : f.1 = 0 → DrawnBuffer l.dBase l.dCap s t

theorem State.finishBuffers_of_ne_zero (s : State) (l : Latched) {v : Nat} (hv : v ≠ 0) :
    s.finishBuffers l v = s.finish v := if_neg hv

/-- `finish` ends a command with what it has written. -/
theorem Wrote.finishBuffers {l : Latched} {out : Written} {s t : State} (h : Wrote l out s t) (v : Nat) :
    EndedWith l (v, out) s (t.finishBuffers l v) := by
  have houtside : SameOutside l.dBase l.dCap s (t.finishBuffers l v) := fun a ha => by
    rw [State.byteAt_finishBuffers, if_neg (by omega), h.outside a ha]
  exact {
    finished := ⟨t.finishBuffers_result l v, t.finishBuffers_busy l v, t.finishBuffers_done l v,
      t.finishBuffers_engine l v⟩
    fault := (t.finishBuffers_fault l v).trans h.fault
    side := h.side.trans (by simp [SameHostSide])
    outside := houtside
    written := fun hv j hj => by rw [State.byteAt_finishBuffers, if_neg (fun hz => hv hz.1), h.dest j hj]
    drawn := fun hv => ⟨fun a hlo hhi => by
      rw [State.byteAt_finishBuffers, if_pos ⟨hv, hlo, hhi⟩, h.draws], houtside⟩ }

end Sys2Proof.Machine
end

section
/-! PROOFS. The loop of `encodeFn` (41_encode.md R130) as a relation without fuel, and what follows from its five rules:
the frame's length, its independence of the capacity, and its bytes (R128, R129). -/

namespace Sys2Proof.Machine

open Sys2Proof Config

/-! ### The loop as a relation -/

/-- The loop of `encodeFn` from the payload bytes left, the code position `c`, the cursor `w` and what is written so far
to the loop's end: one rule for each way an iteration goes. -/
inductive Encodes (cap : Nat) : List Byte → (c w : Nat) → Written → Nat × Written → Prop where
  | abort {bs : List Byte} {c w : Nat} {out : Written} (hcap : cap ≤ w) : Encodes cap bs c w out (0, out)
  | final {c w : Nat} {out : Written} (hcap : w < cap) :
    Encodes cap [] c w out (w + 1, (w, terminator) :: (c, BitVec.ofNat 8 (w - c)) :: out)
  | fullClose {b : Byte} {bs : List Byte} {c w : Nat} {out : Written} {f : Nat × Written} (hcap : w < cap)
    (hspan : w - c = fullSpan) (hrest : Encodes cap (b :: bs) w (w + 1) ((c, fullCode) :: out) f) :
    Encodes cap (b :: bs) c w out f
  | zeroClose {bs : List Byte} {c w : Nat} {out : Written} {f : Nat × Written} (hcap : w < cap)
    (hspan : w - c ≠ fullSpan) (hrest : Encodes cap bs w (w + 1) ((c, BitVec.ofNat 8 (w - c)) :: out) f) :
    Encodes cap (0 :: bs) c w out f
  | copy {b : Byte} {bs : List Byte} {c w : Nat} {out : Written} {f : Nat × Written} (hcap : w < cap)
    (hspan : w - c ≠ fullSpan) (hb : b ≠ 0) (hrest : Encodes cap bs c (w + 1) ((w, b) :: out) f) :
    Encodes cap (b :: bs) c w out f

/-- With fuel for the bytes left and for the full blocks they can fill, `encodeLoop` runs to the loop's end. -/
theorem encodeLoop_encodes {cap fuel : Nat} {bs : List Byte} {c w : Nat} (out : Written)
    (hfuel : bs.length + (bs.length + (w - c - 1)) / maxData + 1 ≤ fuel) :
    Encodes cap bs c w out (encodeLoop fuel bs cap c w out) := by
  simp only [maxData] at hfuel
  induction fuel generalizing bs c w out with
  | zero => omega
  | succ fuel ih =>
    cases bs with
    | nil =>
      rw [encodeLoop]
      split_ifs with hcap
      · exact .abort hcap
      · exact .final (not_le.1 hcap)
    | cons b bs =>
      simp only [List.length_cons] at hfuel
      rw [encodeLoop]
      split_ifs with hcap hspan hb
      · exact .abort hcap
      · rw [fullSpan] at hspan
        exact .fullClose (not_le.1 hcap) hspan (ih _ (by simp only [List.length_cons]; omega))
      · subst hb
        exact .zeroClose (not_le.1 hcap) hspan (ih _ (by omega))
      · exact .copy (not_le.1 hcap) hspan hb (ih _ (by omega))

theorem encodeFn_encodes (p : List Byte) (cap : Nat) : Encodes cap p 0 1 [] (encodeFn p cap) :=
  encodeLoop_encodes [] (by simp only [maxData]; omega)

/-! ### The result (R129) -/

/-- A run longer by a full block has one more full close. -/
theorem fullCloses_add_maxData (r : Nat) (bs : List Byte) (hr : 0 < r) :
    fullCloses (r + maxData) bs = fullCloses r bs + 1 := by
  induction bs generalizing r with
  | nil => simp only [fullCloses, maxData]; omega
  | cons b bs ih =>
    simp only [fullCloses]
    split_ifs
    · simp only [maxData]; omega
    · rw [Nat.add_right_comm, ih (r + 1) (Nat.succ_pos r)]

/-- A block that is full before another payload byte has its full close at once. -/
theorem fullCloses_of_full_block (b : Byte) (bs : List Byte) :
    fullCloses maxData (b :: bs) = fullCloses 0 (b :: bs) + 1 := by
  simp only [fullCloses]
  split_ifs
  · simp only [maxData]; omega
  · rw [Nat.add_comm maxData, Nat.zero_add, fullCloses_add_maxData 1 bs Nat.one_pos]

/-- The length of the frame, told by any iteration on the way: the cursor, the bytes left, the full closes left, and the
terminator. -/
def lengthFrom (bs : List Byte) (c w : Nat) : Nat := w + bs.length + fullCloses (w - c - 1) bs + 1

section LengthFrom

variable {c w : Nat}

theorem lengthFrom_nil (hspan : w - c ≤ fullSpan) : lengthFrom [] c w = w + 1 := by
  simp only [fullSpan] at hspan
  simp only [lengthFrom, fullCloses, List.length_nil]
  omega

theorem lengthFrom_fullClose (hfull : w - c = fullSpan) (b : Byte) (bs : List Byte) :
    lengthFrom (b :: bs) w (w + 1) = lengthFrom (b :: bs) c w := by
  have hd : w - c - 1 = maxData := by rw [hfull]; rfl
  rw [lengthFrom, lengthFrom, hd, fullCloses_of_full_block, Nat.add_sub_cancel_left, Nat.sub_self]
  omega

theorem lengthFrom_zeroClose (hspan : w - c ≤ fullSpan) (hopen : w - c ≠ fullSpan) (bs : List Byte) :
    lengthFrom bs w (w + 1) = lengthFrom (0 :: bs) c w := by
  simp only [fullSpan] at hspan hopen
  simp only [lengthFrom, fullCloses, if_true, List.length_cons, Nat.add_sub_cancel_left, Nat.sub_self]
  omega

theorem lengthFrom_copy (hcw : c < w) {b : Byte} (hb : b ≠ 0) (bs : List Byte) :
    lengthFrom bs c (w + 1) = lengthFrom (b :: bs) c w := by
  have hd : w + 1 - c - 1 = w - c - 1 + 1 := by omega
  rw [lengthFrom, lengthFrom, hd, fullCloses, if_neg hb, List.length_cons]
  omega

theorem lt_lengthFrom (bs : List Byte) (c w : Nat) : w < lengthFrom bs c w := by
  unfold lengthFrom
  omega

end LengthFrom

theorem lengthFrom_start (p : List Byte) : lengthFrom p 0 1 = frameLength p := by
  simp only [lengthFrom, frameLength, Nat.sub_zero, Nat.sub_self]
  omega

/-- No iteration changes the length the frame will have, and the loop's end reaches it when the capacity holds it. -/
theorem Encodes.result_eq {cap : Nat} {bs : List Byte} {c w : Nat} {out : Written} {f : Nat × Written}
    (h : Encodes cap bs c w out f) (hcw : c < w) (hspan : w - c ≤ fullSpan) :
    f.1 = if lengthFrom bs c w ≤ cap then lengthFrom bs c w else 0 := by
  induction h with
  | @abort bs c w _ hcap => exact (if_neg (hcap.trans_lt (lt_lengthFrom bs c w)).not_ge).symm
  | final hcap => rw [lengthFrom_nil hspan, if_pos (Nat.succ_le_of_lt hcap)]
  | fullClose _ hfull _ ih =>
    rw [ih (Nat.lt_succ_self _) (by simp [fullSpan]), lengthFrom_fullClose hfull]
  | zeroClose _ hopen _ ih =>
    rw [ih (Nat.lt_succ_self _) (by simp [fullSpan]), lengthFrom_zeroClose hspan hopen]
  | copy _ hopen hb _ ih =>
    rw [ih (Nat.lt_succ_of_lt hcw) (by omega), lengthFrom_copy hcw hb]

theorem encodeFn_result (p : List Byte) (cap : Nat) :
    (encodeFn p cap).1 = if frameLength p ≤ cap then frameLength p else 0 := by
  rw [(encodeFn_encodes p cap).result_eq Nat.one_pos (by simp [fullSpan]), lengthFrom_start]

/-! ### Independence of the capacity (R129) -/

/-- Two runs of the loop that both have a result go the same way, since the capacity decides an abort alone. -/
theorem Encodes.unique {cap cap' : Nat} {bs : List Byte} {c w : Nat} {out : Written} {f f' : Nat × Written}
    (h : Encodes cap bs c w out f) (h' : Encodes cap' bs c w out f') (hf : f.1 ≠ 0) (hf' : f'.1 ≠ 0) : f' = f := by
  induction h with
  | abort => exact absurd rfl hf
  | final =>
    cases h' with
    | abort => exact absurd rfl hf'
    | final => rfl
  | fullClose _ hfull _ ih =>
    cases h' with
    | abort => exact absurd rfl hf'
    | fullClose _ _ hrest => exact ih hrest hf
    | zeroClose _ hopen _ => exact absurd hfull hopen
    | copy _ hopen _ _ => exact absurd hfull hopen
  | zeroClose _ hopen _ ih =>
    cases h' with
    | abort => exact absurd rfl hf'
    | fullClose _ hfull _ => exact absurd hfull hopen
    | zeroClose _ _ hrest => exact ih hrest hf
    | copy _ _ hb _ => exact absurd rfl hb
  | copy _ hopen hb _ ih =>
    cases h' with
    | abort => exact absurd rfl hf'
    | fullClose _ hfull _ => exact absurd hfull hopen
    | zeroClose _ _ _ => exact absurd rfl hb
    | copy _ _ _ hrest => exact ih hrest hf

theorem encodeFn_eq_of_capacity {p : List Byte} {cap : Nat} (hcap : frameLength p ≤ cap) :
    encodeFn p cap = encodeFn p (frameLength p) := by
  have hpos : frameLength p ≠ 0 := by simp [frameLength]
  refine (encodeFn_encodes p (frameLength p)).unique (encodeFn_encodes p cap) ?_ ?_
  · rwa [encodeFn_result, if_pos (le_refl _)]
  · rwa [encodeFn_result, if_pos hcap]

/-! ### The bytes (R128) -/

/-- Every offset below the cursor but the pending code position holds a byte that is not 0. -/
def NonzeroBelow (c w : Nat) (out : Written) : Prop :=
  ∀ j, j < w → j ≠ c → ∃ b, Written.at out j = some b ∧ b ≠ 0x00

/-- Closing a block fills its code position and makes the cursor the next one. -/
theorem NonzeroBelow.close {c w : Nat} {out : Written} (h : NonzeroBelow c w out) {b : Byte} (hb : b ≠ 0x00) :
    NonzeroBelow w (w + 1) ((c, b) :: out) := by
  intro j hj hjw
  by_cases hc : c = j
  · exact ⟨b, if_pos hc, hb⟩
  · rw [Written.at, if_neg hc]
    exact h j (by omega) (Ne.symm hc)

theorem NonzeroBelow.copy {c w : Nat} {out : Written} (h : NonzeroBelow c w out) {b : Byte} (hb : b ≠ 0x00) :
    NonzeroBelow c (w + 1) ((w, b) :: out) := by
  intro j hj hjc
  by_cases hw : w = j
  · exact ⟨b, if_pos hw, hb⟩
  · rw [Written.at, if_neg hw]
    exact h j (by omega) hjc

/-- A code is not 0 (R131). -/
theorem ofNat_span_ne_zero {c w : Nat} (hcw : c < w) (hspan : w - c ≤ fullSpan) : BitVec.ofNat 8 (w - c) ≠ 0x00 := by
  simp only [fullSpan] at hspan
  intro h
  have hmod : (w - c) % 256 = 0 := congrArg BitVec.toNat h
  omega

/-- With a result, the loop leaves a byte that is not 0 at every offset but the last, where it leaves 0. -/
theorem Encodes.bytes {cap : Nat} {bs : List Byte} {c w : Nat} {out : Written} {f : Nat × Written}
    (h : Encodes cap bs c w out f) (hf : f.1 ≠ 0) (hcw : c < w) (hspan : w - c ≤ fullSpan)
    (hout : NonzeroBelow c w out) :
    (∀ j, j < f.1 - 1 → ∃ b, Written.at f.2 j = some b ∧ b ≠ 0x00) ∧ Written.at f.2 (f.1 - 1) = some 0x00 := by
  induction h with
  | abort => exact absurd rfl hf
  | @final c w out _ =>
    refine ⟨fun j hj => ?_, if_pos rfl⟩
    have hj : j < w := hj
    rw [Written.at, if_neg hj.ne']
    exact hout.close (ofNat_span_ne_zero hcw hspan) j (Nat.lt_succ_of_lt hj) hj.ne
  | fullClose _ _ _ ih =>
    exact ih hf (Nat.lt_succ_self _) (by simp [fullSpan]) (hout.close (by decide))
  | zeroClose _ _ _ ih =>
    exact ih hf (Nat.lt_succ_self _) (by simp [fullSpan]) (hout.close (ofNat_span_ne_zero hcw hspan))
  | copy _ hopen hb _ ih =>
    exact ih hf (Nat.lt_succ_of_lt hcw) (by omega) (hout.copy hb)

theorem Written.bytes_getElem? (out : Written) {n k : Nat} (hk : k < n) :
    (Written.bytes out n)[k]? = some ((Written.at out k).getD 0) := by
  simp [Written.bytes, hk]

theorem frameOf_eq (p : List Byte) :
    frameOf p = Written.bytes (encodeFn p (frameLength p)).2 (frameLength p) := by
  rw [frameOf, encodeFn_result, if_pos (le_refl _)]

end Sys2Proof.Machine
end

section
/-! PROOFS. The encoder's turns follow the loop of `encodeFn`: a relation between a running ENCODE and the loop that
every turn keeps (41_encode.md R130). -/

namespace Sys2Proof.Machine

open Sys2Proof Config

/-- From `s` an ENCODE with the buffers `l` has come to `t`, where the loop that goes on from the engine's cursors, or
the command's end, has the result and the writes of `f`. -/
inductive Encoding (l : Latched) (f : Nat × Written) (s t : State) : Prop where
  | running (inp c w : Nat) (out : Written) (hengine : t.engine = .enc ⟨l, inp, w, c⟩) (hcw : c < w)
    (hwrote : Wrote l out s t) (hrest : Encodes l.dCap (s.sourceFrom l inp) c w out f)
  | ended (hidle : t.engine = .idle) (hend : EndedWith l f s t)

section Encoding

variable {l : Latched} {f : Nat × Written} {s t : State}

/-- One turn is one iteration of the loop. -/
theorem encStep_encoding (hl : l.checked s.platform) (hadmitted : l.admitted s.platform) {inp c w : Nat}
    {out : Written} (hcw : c < w) (hwrote : Wrote l out s t) (hrest : Encodes l.dCap (s.sourceFrom l inp) c w out f) :
    Encoding l f s (encStep ⟨l, inp, w, c⟩ t) := by
  have hplatform : t.platform = s.platform := hwrote.side.1
  obtain ⟨hreads, hwrites⟩ := hadmitted
  rw [← hplatform] at hreads hwrites
  generalize hbs : s.sourceFrom l inp = bs at hrest
  cases hrest with
  | abort hcap =>
    rw [encStep_of_full_destination hcap]
    exact .ended (t.finishBuffers_engine l 0) (hwrote.finishBuffers 0)
  | final hcap =>
    have hc := hcw.trans hcap
    rw [encStep_of_payload_end (State.not_lt_of_sourceFrom_eq_nil hbs) hcap (hwrites c hc) (hwrites w hcap)]
    exact .ended (State.finishBuffers_engine _ l (w + 1)) (((hwrote.write hc _).write hcap _).finishBuffers (w + 1))
  | fullClose hcap hfull hrest =>
    have hc := hcw.trans hcap
    obtain ⟨hlen, -, -⟩ := State.sourceFrom_eq_cons hbs
    rw [encStep_of_full_block hlen hcap hfull (hwrites c hc)]
    exact .running inp w (w + 1) _ rfl (Nat.lt_succ_self w) ((hwrote.write hc _).setEngine _) (hbs ▸ hrest)
  | zeroClose hcap hopen hrest =>
    have hc := hcw.trans hcap
    obtain ⟨hlen, hb, hbs⟩ := State.sourceFrom_eq_cons hbs
    rw [encStep_of_open_block hlen hcap hopen (hreads inp hlen) ((hwrote.source hl hlen).trans hb), if_pos rfl,
      encZeroClose_admitted (hwrites c hc)]
    exact .running (inp + 1) w (w + 1) _ rfl (Nat.lt_succ_self w)
      (((hwrote.logAccess _ _ _).write hc _).setEngine _) (hbs ▸ hrest)
  | @copy b _ _ _ _ _ hcap hopen hne hrest =>
    obtain ⟨hlen, hb, hbs⟩ := State.sourceFrom_eq_cons hbs
    rw [encStep_of_open_block hlen hcap hopen (hreads inp hlen) ((hwrote.source hl hlen).trans hb), if_neg hne,
      encCopy_admitted (hwrites w hcap)]
    exact .running (inp + 1) c (w + 1) _ rfl (Nat.lt_succ_of_lt hcw)
      (((hwrote.logAccess _ _ _).write hcap _).setEngine _) (hbs ▸ hrest)

theorem Encoding.turn (h : Encoding l f s t) (hl : l.checked s.platform) (hadmitted : l.admitted s.platform) :
    Encoding l f s (engineTurn t) ∧ (engineTurn t).inputs = t.inputs := by
  cases h with
  | running inp c w out hengine hcw hwrote hrest =>
    rw [engineTurn_enc hengine]
    exact ⟨encStep_encoding hl hadmitted hcw hwrote hrest, (encStep_advances (Nat.le_succ _)).inputs⟩
  | ended hidle hend =>
    rw [engineTurn_idle hidle]
    exact ⟨.ended hidle hend, rfl⟩

theorem Encoding.endedWith_of_idle (h : Encoding l f s t) (hidle : t.engine = .idle) : EndedWith l f s t := by
  cases h with
  | running inp c w out hengine _ _ _ => rw [hidle] at hengine; cases hengine
  | ended _ hend => exact hend

/-- With no event left, a run of the machine keeps the relation. -/
theorem Encoding.runs {k : Nat} {u : State} (h : Encoding l f s t) (hl : l.checked s.platform)
    (hadmitted : l.admitted s.platform) (hi : t.inputs = []) (hrun : Runs k t u) : Encoding l f s u := by
  have hkeep : ∀ a b, a.inputs = [] ∧ Encoding l f s a → step a = .next b → b.inputs = [] ∧ Encoding l f s b := by
    rintro a b ⟨ha, henc⟩ hstep
    rw [step_of_no_inputs ha] at hstep
    cases hstep
    obtain ⟨hnext, hinputs⟩ := henc.turn hl hadmitted
    exact ⟨hinputs.trans ha, hnext⟩
  exact (hrun.keeps hkeep ⟨hi, h⟩).2

end Encoding

end Sys2Proof.Machine
end

section
/-! PROOFS. The statements of the family 41_encode.md. -/

namespace Sys2Proof.Machine

open Sys2Proof Config

/-- Settles O48: the accepted command starts in the relation to `encodeFn`'s loop, ends within its bound of turns, and
is then related by its end. -/
theorem encodeRunComputesEncodeFn : Obligations.EncodeRunComputesEncodeFn := by
  rintro s _ _ - hi hfault hbusy rfl hchecks hadmitted rfl
  have hexec := exec_encode_accepted hfault hbusy hchecks
  obtain ⟨k, u, hrun, -, hidle, hk, -, -⟩ := acceptedCommandEndsWithinBound .encode s _ hi hbusy hexec rfl
  have hstart : Encoding s.latch (encodeFn (s.bytesAt s.latch.sBase s.latch.sLen) s.latch.dCap) s
      (s.clearResult.start (encoderInit s.latch)) :=
    .running 0 0 1 [] rfl Nat.one_pos (.of_sameMemory (SameHostSide.refl s) rfl ⟨fun _ => rfl, rfl⟩)
      (encodeFn_encodes _ _)
  have hend := (hstart.runs ⟨s.latch_fits, hchecks⟩ hadmitted hi hrun).endedWith_of_idle hidle
  exact ⟨_, k, u, hexec, hk rfl, hrun, hend.finished, hend.fault.trans hfault, hend.side, hend.outside, hend.written,
    hend.drawn⟩

/-- Settles O51: the loop's result, and that two capacities with a result give the same writes. -/
theorem encodeResultIsFrameLength : Obligations.EncodeResultIsFrameLength := by
  intro p cap
  refine ⟨encodeFn_result p cap, fun hcap => ?_⟩
  rw [frameOf_eq, encodeFn_eq_of_capacity hcap]

/-- Settles O52: no block is closed with code 0, no zero is copied, and the terminator is written last. -/
theorem frameHasNoEmbeddedZero : Obligations.FrameHasNoEmbeddedZero := by
  intro p
  have hresult : (encodeFn p (frameLength p)).1 = frameLength p := by rw [encodeFn_result, if_pos (le_refl _)]
  have hpos : 0 < frameLength p := by simp [frameLength]
  obtain ⟨hnonzero, hlast⟩ := (encodeFn_encodes p (frameLength p)).bytes (by omega) Nat.one_pos (by simp [fullSpan])
    (fun j hj hne => by omega)
  rw [hresult] at hnonzero hlast
  rw [frameOf_eq]
  refine ⟨by simp [Written.bytes], fun k hk => ?_, ?_⟩
  · obtain ⟨b, hb, hne⟩ := hnonzero k hk
    exact ⟨b, by rw [Written.bytes_getElem? _ (by omega), hb]; rfl, hne⟩
  · rw [Written.bytes_getElem? _ (by omega), hlast]
    rfl

/-- Settles O7: the conditions pass the three checks, so the start step runs on the latched values. -/
theorem encodeIsAccepted : Obligations.EncodeIsAccepted := by
  rintro s _ _ _ _ rfl rfl rfl rfl hfault hbusy hsrc hdst hsrcFits hdstFits hapart
  have hexec := exec_encode_accepted hfault hbusy (bufferFault_eq_none hsrc hdst hsrcFits hdstFits hapart)
  obtain ⟨hside, hmem, -, -, htrace, hinputs, -⟩ := issueFrame _ s _ hexec
  exact ⟨_, hexec, rfl, rfl, rfl, rfl, hfault, hside, hmem, htrace, hinputs⟩

/-- The end that O14 and the first clause of O18 share. -/
theorem step_of_full_destination {s : State} {r : EncRegs} (hnext : s.engineNext) (he : s.engine = .enc r)
    (hcap : r.args.dCap ≤ r.w) :
    ∃ t, step s = .next t ∧ FinishedWith 0 t ∧ t.fault = s.fault ∧ SameHostSide s t ∧
      DrawnBuffer r.args.dBase r.args.dCap s t ∧ t.trace = s.trace ∧ t.inputs = s.inputs.tail := by
  have hstart : Wrote r.args [] s (s.withInputs s.inputs.tail) :=
    .of_sameMemory (SameHostSide.refl s) rfl ⟨fun _ => rfl, rfl⟩
  have hend := hstart.finishBuffers 0
  exact ⟨_, step_of_encStep hnext he (encStep_of_full_destination hcap), hend.finished,
    hend.fault, hend.side, hend.drawn rfl, by simp, by simp⟩

/-- Settles O14: a full destination ends the command. -/
theorem encodeCapacityAbort : Obligations.EncodeCapacityAbort :=
  fun _ _ hnext he _ hcap => step_of_full_destination hnext he hcap

/-- Settles O15: the step is one write of the code 255. -/
theorem encodeFullBlockClose : Obligations.EncodeFullBlockClose := by
  intro s r hnext he hlen hcap hspan hwrite
  obtain ⟨hbyte, hmem, hflags, hside⟩ := writeByte_frame (t := s.withInputs s.inputs.tail) (SameHostSide.refl s)
    ⟨rfl, rfl, rfl, rfl⟩ ⟨fun _ => rfl, rfl⟩ (r.args.dBase + r.c) fullCode (.enc { r with c := r.w, w := r.w + 1 })
  exact ⟨_, step_of_encStep hnext he (encStep_of_full_block hlen hcap hspan hwrite), rfl,
    hbyte, hmem, hflags, hside, rfl, rfl⟩

/-- Settles O16: the step is one read, of a zero, and one write of the block's span. -/
theorem encodeZeroClose : Obligations.EncodeZeroClose := by
  intro s r hnext he hlen hcap hspan hread hzero hwrite
  obtain ⟨hbyte, hmem, hflags, hside⟩ := writeByte_frame
    (t := (s.withInputs s.inputs.tail).logAccess .read (r.args.sBase + r.inp) 0x00) (SameHostSide.refl s)
    ⟨rfl, rfl, rfl, rfl⟩ ⟨fun _ => rfl, rfl⟩ (r.args.dBase + r.c) (closeCode r)
    (.enc { r with c := r.w, w := r.w + 1, inp := r.inp + 1 })
  have hturn := (encStep_of_open_block (s := s.withInputs s.inputs.tail) hlen hcap hspan.ne hread hzero).trans
    ((if_pos rfl).trans (encZeroClose_admitted hwrite))
  refine ⟨_, step_of_encStep hnext he hturn, rfl, ?_, hmem, hflags, hside, rfl, rfl⟩
  rw [hbyte, closeCode_toNat hspan.le]

/-- Settles O17: the step is one read, of a byte that is not 0, and one write of it. -/
theorem encodeCopy : Obligations.EncodeCopy := by
  intro s r hnext he hlen hcap hspan hread hbyte hwrite
  have hturn := (encStep_of_open_block (s := s.withInputs s.inputs.tail) hlen hcap hspan.ne hread rfl).trans
    ((if_neg hbyte).trans (encCopy_admitted hwrite))
  obtain ⟨hcopied, hmem, hflags, hside⟩ := writeByte_frame
    (t := (s.withInputs s.inputs.tail).logAccess .read (r.args.sBase + r.inp) (s.byteAt (r.args.sBase + r.inp)))
    (SameHostSide.refl s) ⟨rfl, rfl, rfl, rfl⟩ ⟨fun _ => rfl, rfl⟩ (r.args.dBase + r.w)
    (s.byteAt (r.args.sBase + r.inp)) (.enc { r with w := r.w + 1, inp := r.inp + 1 })
  exact ⟨_, step_of_encStep hnext he hturn, rfl, hcopied, hmem, hflags, hside, rfl, rfl⟩

/-- Settles O18: without room the command ends at once, and with room the step is the two writes and `finish`. -/
theorem encodeFinalClose : Obligations.EncodeFinalClose := by
  intro s r hnext he hlen
  refine ⟨step_of_full_destination hnext he, fun hcap hcw hspan hcode hterm => ?_⟩
  have hturn := encStep_of_payload_end (s := s.withInputs s.inputs.tail) hlen.ge.not_gt hcap hcode hterm
  rw [State.finishBuffers_of_ne_zero _ _ (Nat.succ_ne_zero r.w)] at hturn
  refine ⟨_, step_of_encStep hnext he hturn, ⟨rfl, rfl, rfl, rfl⟩, by simp,
    by simp [SameHostSide], ?_, ?_, fun a hc hw => ?_, by simp, by simp [closeCode, terminator], by simp⟩
  · simp [State.byteAt_setByte, hcw.ne, closeCode_toNat hspan]
  · simp [State.byteAt_setByte, terminator]
  · simp [State.byteAt_setByte, hc, hw]

end Sys2Proof.Machine
end

section
/-! PROOFS. The loop of `decodeFn` (42_decode.md R167) byte by byte: what the scan has decoded, the buffers it accepts
(R166), and the bytes it returns. -/

namespace Sys2Proof.Machine

open Sys2Proof Config

/-! ### The scan -/

/-- What the loop of `decodeFn` carries besides its offset: the next code position, the write cursor, the most recent
code and what is written so far. -/
structure Scan where
  next : Nat
  w    : Nat
  code : Byte
  out  : Written

/-- The loop of `decodeFn` from the frame bytes left, the first at offset `i`. -/
def Scan.run (x : Scan) (cap i : Nat) (bs : List Byte) : Nat × Written :=
  decodeLoop bs cap i x.next x.w x.code x.out

/-- The scan after byte 0 of a frame (R153). -/
def Scan.first (b : Byte) : Scan := ⟨b.toNat, 0, b, []⟩

/-- The scan after a byte at offset `i` that is taken as code or data (R164, R165). -/
def Scan.take (x : Scan) (i : Nat) (b : Byte) : Scan :=
  if i = x.next then
    if x.code ≠ fullCode then ⟨i + b.toNat, x.w + 1, b, (x.w, 0) :: x.out⟩ else ⟨i + b.toNat, x.w, b, x.out⟩
  else ⟨x.next, x.w + 1, x.code, (x.w, b) :: x.out⟩

/-- The scan after several such bytes, the first at offset `i`. -/
def Scan.after (x : Scan) : (i : Nat) → List Byte → Scan
  | _, [] => x
  | i, b :: bs => (x.take i b).after (i + 1) bs

theorem decodeFn_cons (b : Byte) (bs : List Byte) (cap : Nat) :
    decodeFn (b :: bs) cap = (Scan.first b).run cap 1 bs := rfl

section Scan

variable {x : Scan} {cap i : Nat} {b : Byte} {bs ds : List Byte}

theorem Scan.take_code (hi : i = x.next) (hcode : x.code ≠ fullCode) :
    x.take i b = ⟨i + b.toNat, x.w + 1, b, (x.w, 0) :: x.out⟩ := by rw [Scan.take, if_pos hi, if_pos hcode]

theorem Scan.take_code_after_full (hi : i = x.next) (hcode : x.code = fullCode) :
    x.take i b = ⟨i + b.toNat, x.w, b, x.out⟩ := by rw [Scan.take, if_pos hi, if_neg (not_not.2 hcode)]

theorem Scan.take_data (hi : i ≠ x.next) : x.take i b = ⟨x.next, x.w + 1, x.code, (x.w, b) :: x.out⟩ := if_neg hi

theorem Scan.run_nil : x.run cap i [] = (0, x.out) := rfl

theorem Scan.run_terminator (bs : List Byte) :
    x.run cap i (terminator :: bs) = (if bs = [] then x.w else 0, x.out) := by
  rw [Scan.run, decodeLoop, if_pos rfl]
  split_ifs <;> rfl

theorem Scan.run_full (hb : b ≠ terminator) (hcap : cap ≤ x.w) : x.run cap i (b :: bs) = (0, x.out) := by
  rw [Scan.run, decodeLoop, if_neg hb, if_pos hcap]

theorem Scan.run_byte (hb : b ≠ terminator) (hcap : x.w < cap) :
    x.run cap i (b :: bs) = (x.take i b).run cap (i + 1) bs := by
  rw [Scan.run, decodeLoop, if_neg hb, if_neg hcap.not_ge, Scan.take]
  split_ifs <;> rfl

/-! ### The buffers accepted (R166) -/

theorem Scan.after_w : (x.after i bs).w = x.w + emitCount bs i x.next x.code := by
  induction bs generalizing x i with
  | nil => rfl
  | cons b bs ih =>
    rw [Scan.after, ih, emitCount, Scan.take]
    split_ifs <;> simp only <;> omega

theorem emitCount_le (bs : List Byte) (i next : Nat) (code : Byte) : emitCount bs i next code ≤ bs.length := by
  induction bs generalizing i next code with
  | nil => exact le_refl 0
  | cons b bs ih =>
    have hcode := ih (i + 1) (i + b.toNat) b
    have hdata := ih (i + 1) next code
    rw [emitCount, List.length_cons]
    split_ifs <;> omega

/-- The capacity check passes at each of these bytes. -/
def Scan.HasRoom (x : Scan) (cap i : Nat) (ds : List Byte) : Prop :=
  ∀ k, k < ds.length → (x.after i (ds.take k)).w < cap

theorem Scan.hasRoom_cons : x.HasRoom cap i (b :: ds) ↔ x.w < cap ∧ (x.take i b).HasRoom cap (i + 1) ds :=
  Nat.forall_lt_succ_left

theorem Scan.hasRoom_of_le (h : x.w + ds.length ≤ cap) : x.HasRoom cap i ds := by
  intro k hk
  have hle := emitCount_le (ds.take k) i x.next x.code
  rw [List.length_take_of_le hk.le] at hle
  rw [Scan.after_w]
  omega

/-- With room, a scan that meets its first zero at the last byte gives what it has decoded. -/
theorem Scan.run_accepted (hds : ∀ d ∈ ds, d ≠ terminator) (hroom : x.HasRoom cap i ds) :
    x.run cap i (ds ++ [terminator]) = ((x.after i ds).w, (x.after i ds).out) := by
  induction ds generalizing x i with
  | nil => exact Scan.run_terminator []
  | cons d ds ih =>
    obtain ⟨hd, hds⟩ := List.forall_mem_cons.1 hds
    obtain ⟨hcap, hroom⟩ := Scan.hasRoom_cons.1 hroom
    exact (Scan.run_byte hd hcap).trans (ih hds hroom)

/-- A scan with a result has met its first zero at the last byte, and had room. -/
theorem Scan.accepted_of_run_ne_zero (h : (x.run cap i bs).1 ≠ 0) :
    ∃ ds, bs = ds ++ [terminator] ∧ (∀ d ∈ ds, d ≠ terminator) ∧ x.HasRoom cap i ds := by
  induction bs generalizing x i with
  | nil => exact absurd rfl h
  | cons b bs ih =>
    by_cases hb : b = terminator
    · subst hb
      rw [Scan.run_terminator] at h
      obtain rfl : bs = [] := by
        by_contra hbs
        exact h (if_neg hbs)
      exact ⟨[], rfl, by simp, fun k hk => absurd hk (Nat.not_lt_zero k)⟩
    · by_cases hcap : x.w < cap
      · rw [Scan.run_byte hb hcap] at h
        obtain ⟨ds, rfl, hds, hroom⟩ := ih h
        exact ⟨b :: ds, rfl, List.forall_mem_cons.2 ⟨hb, hds⟩, Scan.hasRoom_cons.2 ⟨hcap, hroom⟩⟩
      · rw [Scan.run_full hb (not_lt.1 hcap)] at h
        exact absurd rfl h

end Scan

/-- The accepted shape as a list: a first byte, bytes that are not 0, and the terminator. -/
theorem acceptedShape_iff (f : List Byte) :
    AcceptedShape f ↔ ∃ b ds, f = b :: (ds ++ [terminator]) ∧ ∀ d ∈ ds, d ≠ terminator := by
  constructor
  · rintro ⟨hlen, hlast, hinner⟩
    obtain ⟨b, bs, rfl⟩ := List.exists_cons_of_length_pos (Nat.zero_lt_of_lt hlen)
    obtain rfl | ⟨ds, e, rfl⟩ := List.eq_nil_or_concat' bs
    · simp at hlen
    · obtain rfl : e = terminator := by simpa using hlast
      refine ⟨b, ds, rfl, fun d hd hzero => ?_⟩
      obtain ⟨j, hj, rfl⟩ := List.getElem_of_mem hd
      refine hinner (j + 1) (by simpa using hj) (Nat.succ_pos j) ?_
      rw [List.getElem?_cons_succ, List.getElem?_append_left hj, List.getElem?_eq_getElem hj, hzero]
  · rintro ⟨b, ds, rfl, hds⟩
    refine ⟨by simp, by simp, fun k hk hpos hzero => ?_⟩
    obtain ⟨j, rfl⟩ := Nat.exists_eq_succ_of_ne_zero (Nat.ne_of_gt hpos)
    have hj : j < ds.length := by simpa using hk
    rw [List.getElem?_cons_succ, List.getElem?_append_left hj] at hzero
    exact hds _ (List.mem_of_getElem? hzero) rfl

theorem decodeFn_accepted {b : Byte} {ds : List Byte} {cap : Nat} (hds : ∀ d ∈ ds, d ≠ terminator)
    (hroom : (Scan.first b).HasRoom cap 1 ds) :
    decodeFn (b :: (ds ++ [terminator])) cap = (((Scan.first b).after 1 ds).w, ((Scan.first b).after 1 ds).out) :=
  Scan.run_accepted hds hroom

theorem accepted_of_decodeFn_ne_zero {f : List Byte} {cap : Nat} (h : (decodeFn f cap).1 ≠ 0) :
    ∃ b ds, f = b :: (ds ++ [terminator]) ∧ (∀ d ∈ ds, d ≠ terminator) ∧ (Scan.first b).HasRoom cap 1 ds := by
  cases f with
  | nil => exact absurd rfl h
  | cons b bs =>
    rw [decodeFn_cons] at h
    obtain ⟨ds, rfl, hds, hroom⟩ := Scan.accepted_of_run_ne_zero h
    exact ⟨b, ds, rfl, hds, hroom⟩

theorem decodeFn_of_not_acceptedShape {f : List Byte} (h : ¬ AcceptedShape f) (cap : Nat) :
    (decodeFn f cap).1 = 0 := by
  by_contra hne
  obtain ⟨b, ds, hf, hds, -⟩ := accepted_of_decodeFn_ne_zero hne
  exact h ((acceptedShape_iff f).2 ⟨b, ds, hf, hds⟩)

/-- What the scan has emitted before an offset that is not past the terminator (R166). -/
theorem emittedBefore_eq {b : Byte} {ds bs : List Byte} {k : Nat} (hk : k ≤ ds.length) :
    emittedBefore (b :: (ds ++ bs)) (k + 1) = ((Scan.first b).after 1 (ds.take k)).w := by
  rw [Scan.after_w, emittedBefore, Nat.add_sub_cancel, List.take_append_of_le_length hk]
  exact (Nat.zero_add _).symm

/-- The condition 3 of R166 is the room of the scan. -/
theorem hasRoom_iff_emittedBefore {b : Byte} {ds : List Byte} {cap : Nat} :
    (Scan.first b).HasRoom cap 1 ds ↔
      ∀ k, 1 ≤ k → k + 2 ≤ (b :: (ds ++ [terminator])).length → emittedBefore (b :: (ds ++ [terminator])) k < cap := by
  simp only [List.length_cons, List.length_append, List.length_nil]
  constructor
  · intro h k hpos hle
    obtain ⟨j, rfl⟩ := Nat.exists_eq_succ_of_ne_zero (Nat.ne_of_gt hpos)
    rw [emittedBefore_eq (by omega)]
    exact h j (by omega)
  · intro h k hk
    rw [← emittedBefore_eq hk.le]
    exact h (k + 1) (Nat.succ_pos k) (by omega)

/-! ### The bytes written -/

/-- A list of bytes written from offset `w` on, one after another. -/
def Written.push (out : Written) (w : Nat) : List Byte → Written
  | [] => out
  | b :: bs => Written.push ((w, b) :: out) (w + 1) bs

theorem Written.bytes_cons (out : Written) (w : Nat) (b : Byte) :
    Written.bytes ((w, b) :: out) (w + 1) = Written.bytes out w ++ [b] := by
  have hbelow : Written.bytes ((w, b) :: out) w = Written.bytes out w :=
    List.map_congr_left fun k hk => by rw [Written.at, if_neg (List.mem_range.1 hk).ne']
  rw [← hbelow, Written.bytes, Written.bytes, List.range_succ, List.map_append, List.map_singleton, Written.at,
    if_pos rfl, Option.getD_some]

theorem Written.bytes_push (out : Written) (w : Nat) (bs : List Byte) :
    Written.bytes (out.push w bs) (w + bs.length) = Written.bytes out w ++ bs := by
  induction bs generalizing out w with
  | nil => exact (List.append_nil _).symm
  | cons b bs ih =>
    rw [Written.push, List.length_cons, Nat.add_comm bs.length, ← Nat.add_assoc, ih, Written.bytes_cons,
      List.append_assoc, List.singleton_append]

/-- Bytes past the next code position are data, all of them (R153 for a code of 0). -/
theorem Scan.after_data {x : Scan} {i : Nat} (hi : x.next < i) (ds : List Byte) :
    x.after i ds = ⟨x.next, x.w + ds.length, x.code, x.out.push x.w ds⟩ := by
  induction ds generalizing x i with
  | nil => rfl
  | cons d ds ih =>
    rw [Scan.after, Scan.take_data hi.ne', ih (by exact Nat.lt_succ_of_lt hi), List.length_cons, Nat.add_comm ds.length,
      ← Nat.add_assoc]
    rfl

end Sys2Proof.Machine
end

section
/-! PROOFS. The scan of a frame gives its payload back (42_decode.md R169): each way an iteration of `encodeFn`'s loop
goes is undone by the scan of the byte it leaves at the cursor. -/

namespace Sys2Proof.Machine

open Sys2Proof Config

/-! ### The bytes of a frame -/

/-- The byte a composed effect leaves at an offset. -/
def Written.byte (out : Written) (k : Nat) : Byte := (Written.at out k).getD 0

theorem Written.bytes_drop (out : Written) {n k : Nat} (hk : k < n) :
    (Written.bytes out n).drop k = out.byte k :: (Written.bytes out n).drop (k + 1) := by
  rw [List.drop_eq_getElem_cons (by simpa [Written.bytes] using hk)]
  simp [Written.bytes, Written.byte]

theorem Written.byte_cons_same (out : Written) (k : Nat) (b : Byte) : Written.byte ((k, b) :: out) k = b := by
  rw [Written.byte, Written.at, if_pos rfl, Option.getD_some]

theorem Written.byte_cons_of_ne (out : Written) {j k : Nat} (hne : j ≠ k) (b : Byte) :
    Written.byte ((k, b) :: out) j = out.byte j := by
  rw [Written.byte, Written.at, if_neg hne.symm, Written.byte]

/-- The encoder's loop writes at its code position and from its cursor on. -/
theorem Encodes.byte_eq {cap : Nat} {bs : List Byte} {c w : Nat} {out : Written} {f : Nat × Written}
    (h : Encodes cap bs c w out f) {j : Nat} (hj : j < w) (hjc : j ≠ c) : Written.byte f.2 j = out.byte j := by
  induction h with
  | abort => rfl
  | final => exact (Written.byte_cons_of_ne _ hj.ne _).trans (Written.byte_cons_of_ne _ hjc _)
  | fullClose _ _ _ ih => exact (ih (Nat.lt_succ_of_lt hj) hj.ne).trans (Written.byte_cons_of_ne _ hjc _)
  | zeroClose _ _ _ ih => exact (ih (Nat.lt_succ_of_lt hj) hj.ne).trans (Written.byte_cons_of_ne _ hjc _)
  | copy _ _ _ _ ih => exact (ih (Nat.lt_succ_of_lt hj) hjc).trans (Written.byte_cons_of_ne _ hj.ne _)

/-- The byte of the last write stays where the loop does not write again: below its cursor, off its code position. -/
theorem Encodes.byte_written {cap : Nat} {bs : List Byte} {c w k : Nat} {b : Byte} {out : Written} {f : Nat × Written}
    (h : Encodes cap bs c w ((k, b) :: out) f) (hk : k < w) (hkc : k ≠ c) : Written.byte f.2 k = b :=
  (h.byte_eq hk hkc).trans (Written.byte_cons_same out k b)

theorem Encodes.lt_result {cap : Nat} {bs : List Byte} {c w : Nat} {out : Written} {f : Nat × Written}
    (h : Encodes cap bs c w out f) (hf : f.1 ≠ 0) (hcw : c < w) (hspan : w - c ≤ fullSpan) : w < f.1 := by
  have hresult := h.result_eq hcw hspan
  split_ifs at hresult with hcap
  · exact hresult ▸ lt_lengthFrom bs c w
  · exact absurd hresult hf

/-! ### The round trip -/

/-- What the rest of a frame `f` means to a scan that comes to offset `w` with its last code byte at offset `c`: the next
code position is not behind, and with room for `bs` the scan writes `bs` and meets the terminator. -/
structure ScansTo (f : Nat × Written) (c w : Nat) (bs : List Byte) : Prop where
  ahead : w ≤ c + (Written.byte f.2 c).toNat
  scans : ∀ (x : Scan) (cap : Nat), x.next = c + (Written.byte f.2 c).toNat → x.code = Written.byte f.2 c →
    x.w + bs.length ≤ cap →
      x.run cap w ((Written.bytes f.2 f.1).drop w) = (x.w + bs.length, x.out.push x.w bs)

section Steps

variable {f : Nat × Written} {c w : Nat} {b : Byte} {bs : List Byte}

theorem ScansTo.code_ne_terminator (h : ScansTo f c (c + 1) bs) : Written.byte f.2 c ≠ terminator := by
  intro hzero
  have := h.ahead
  rw [hzero] at this
  simp [terminator] at this

theorem scansTo_final (hw : f.1 = w + 1) (hend : Written.byte f.2 w = terminator)
    (hcode : c + (Written.byte f.2 c).toNat = w) : ScansTo f c w [] where
  ahead := hcode.ge
  scans x cap _ _ _ := by
    have hrest : (Written.bytes f.2 f.1).drop (w + 1) = [] := List.drop_eq_nil_of_le (by simp [Written.bytes, hw])
    rw [Written.bytes_drop _ (by omega), hrest, hend, Scan.run_terminator]
    rfl

theorem ScansTo.copy (h : ScansTo f c (w + 1) bs) (hw : w < f.1) (hb : Written.byte f.2 w = b) (hne : b ≠ 0) :
    ScansTo f c w (b :: bs) where
  ahead := Nat.le_of_succ_le h.ahead
  scans x cap hnext hcode hcap := by
    rw [List.length_cons] at hcap ⊢
    rw [Written.bytes_drop _ hw, hb, Scan.run_byte hne (by omega),
      Scan.take_data (hnext ▸ (Nat.lt_of_succ_le h.ahead).ne),
      h.scans _ cap (by exact hnext) (by exact hcode) (by simp only; omega),
      Nat.add_right_comm, ← Nat.add_assoc]
    rfl

theorem ScansTo.zeroClose (h : ScansTo f w (w + 1) bs) (hw : w < f.1) (hcode : c + (Written.byte f.2 c).toNat = w)
    (hopen : Written.byte f.2 c ≠ fullCode) : ScansTo f c w (0 :: bs) where
  ahead := hcode.ge
  scans x cap hnext hxcode hcap := by
    rw [List.length_cons] at hcap ⊢
    rw [Written.bytes_drop _ hw, Scan.run_byte h.code_ne_terminator (by omega),
      Scan.take_code (hnext.trans hcode).symm (hxcode ▸ hopen), h.scans _ cap rfl rfl (by simp only; omega),
      Nat.add_right_comm, ← Nat.add_assoc]
    rfl

theorem ScansTo.fullClose (h : ScansTo f w (w + 1) (b :: bs)) (hw : w < f.1)
    (hcode : c + (Written.byte f.2 c).toNat = w) (hfull : Written.byte f.2 c = fullCode) : ScansTo f c w (b :: bs) where
  ahead := hcode.ge
  scans x cap hnext hxcode hcap := by
    have hroom : x.w < cap := by rw [List.length_cons] at hcap; omega
    rw [Written.bytes_drop _ hw, Scan.run_byte h.code_ne_terminator hroom,
      Scan.take_code_after_full (hnext.trans hcode).symm (hxcode.trans hfull), h.scans _ cap rfl rfl (by exact hcap)]

end Steps

theorem toNat_ofNat_span {c w : Nat} (hspan : w - c ≤ fullSpan) : (BitVec.ofNat 8 (w - c)).toNat = w - c := by
  rw [fullSpan] at hspan
  rw [BitVec.toNat_ofNat, Nat.mod_eq_of_lt (by omega)]

/-- The scan undoes the encoder's loop, whatever the encoder's capacity was. -/
theorem Encodes.scansTo {cap : Nat} {bs : List Byte} {c w : Nat} {out : Written} {f : Nat × Written}
    (h : Encodes cap bs c w out f) (hf : f.1 ≠ 0) (hcw : c < w) (hspan : w - c ≤ fullSpan) : ScansTo f c w bs := by
  have hone : ∀ k, k + 1 - k ≤ fullSpan := fun k => by simp [fullSpan]
  induction h with
  | abort => exact absurd rfl hf
  | @final c w out _ =>
    refine scansTo_final rfl (Written.byte_cons_same _ _ _) ?_
    rw [Written.byte_cons_of_ne _ hcw.ne, Written.byte_cons_same, toNat_ofNat_span hspan]
    omega
  | @fullClose b bs c w out f _ hfull hrest ih =>
    have hw := hrest.lt_result hf (Nat.lt_succ_self w) (hone w)
    have hcode := hrest.byte_written (Nat.lt_succ_of_lt hcw) hcw.ne
    have hvalue : fullCode.toNat = fullSpan := rfl
    refine (ih hf (Nat.lt_succ_self w) (hone w)).fullClose (Nat.lt_of_succ_lt hw) ?_ hcode
    rw [hcode, hvalue, ← hfull]
    omega
  | @zeroClose bs c w out f _ hopen hrest ih =>
    have hw := hrest.lt_result hf (Nat.lt_succ_self w) (hone w)
    have hcode := hrest.byte_written (Nat.lt_succ_of_lt hcw) hcw.ne
    have hvalue := toNat_ofNat_span hspan
    refine (ih hf (Nat.lt_succ_self w) (hone w)).zeroClose (Nat.lt_of_succ_lt hw) ?_ fun hfull => ?_
    · rw [hcode, hvalue]
      omega
    · rw [← hcode, hfull] at hvalue
      exact hopen hvalue.symm
  | @copy b bs c w out f _ hopen hb hrest ih =>
    have hcw' : c < w + 1 := Nat.lt_succ_of_lt hcw
    have hspan' : w + 1 - c ≤ fullSpan := by omega
    have hw := hrest.lt_result hf hcw' hspan'
    exact (ih hf hcw' hspan').copy (Nat.lt_of_succ_lt hw) (hrest.byte_written (Nat.lt_succ_self w) hcw.ne') hb

/-- R169 for `decodeFn` as a whole. -/
theorem decodeFn_frameOf {p : List Byte} {cap : Nat} (hcap : p.length ≤ cap) :
    decodeFn (frameOf p) cap = (p.length, Written.push [] 0 p) := by
  have hresult : (encodeFn p (frameLength p)).1 = frameLength p := by rw [encodeFn_result, if_pos (le_refl _)]
  have hpos : 0 < frameLength p := by simp [frameLength]
  have hframe := (encodeFn_encodes p (frameLength p)).scansTo (by omega) Nat.one_pos (by simp [fullSpan])
  rw [frameOf, ← List.drop_zero (l := Written.bytes _ _), Written.bytes_drop _ (by omega), decodeFn_cons,
    hframe.scans _ cap (Nat.zero_add _).symm rfl (by simpa [Scan.first] using hcap)]
  simp [Scan.first]

end Sys2Proof.Machine
end

section
/-! PROOFS. The acceptance of DECODE, the decoder's turn rule by rule (42_decode.md R152 to R165), and the frame of a
turn that ends a command with buffers. -/

namespace Sys2Proof.Machine

open Sys2Proof Config

theorem exec_decode_accepted {s : State} (hfault : s.fault = .none) (hbusy : s.busy = false)
    (hc : bufferFault s.platform s.latch = none) :
    exec .decode s = .next (s.clearResult.start (decoderInit s.latch)) :=
  congrArg Host.Outcome.next (issueBuffers_accepted (s.takesCommand_iff.2 ⟨hfault, hbusy⟩) hc)

/-! ### The first turn -/

section First

variable {r : FirstRegs} {s : State}

theorem step_of_decFirstStep {t : State} (hnext : s.engineNext) (he : s.engine = .decFirst r)
    (hturn : decFirstStep r (s.withInputs s.inputs.tail) = t) : step s = .next t := by
  rw [step_of_engineNext hnext, engineTurn_decFirst (s := s.withInputs s.inputs.tail) he, hturn]

/-- An empty frame ends the command (R152). -/
theorem decFirstStep_of_empty (hlen : r.args.sLen = 0) : decFirstStep r s = s.finishBuffers r.args 0 := if_pos hlen

/-- Byte 0 is the first code (R153). -/
theorem decFirstStep_of_byte (hlen : r.args.sLen ≠ 0) (hread : memOK s.platform .read r.args.sBase = true) {b : Byte}
    (hb : s.byteAt r.args.sBase = b) :
    decFirstStep r s = (s.logAccess .read r.args.sBase b).setEngine
      (.decScan { args := r.args, inp := 1, w := r.w, next := b.toNat, code := b, term := r.term }) := by
  subst hb
  rw [decFirstStep, if_neg hlen]
  exact State.memRead_admitted hread

end First

/-! ### A turn of the scan -/

section Turn

variable {r : ScanRegs} {s : State} {b : Byte}

theorem step_of_decScanStep {t : State} (hnext : s.engineNext) (he : s.engine = .decScan r)
    (hturn : decScanStep r (s.withInputs s.inputs.tail) = t) : step s = .next t := by
  rw [step_of_engineNext hnext, engineTurn_decScan (s := s.withInputs s.inputs.tail) he, hturn]

theorem atCodePosition_iff : atCodePosition r = true ↔ r.inp = r.next := decide_eq_true_iff

/-- Input exhausted without a terminator (R161). -/
theorem decScanStep_of_exhausted (hlen : ¬ r.inp < r.args.sLen) : decScanStep r s = s.finishBuffers r.args 0 :=
  if_neg hlen

/-- The read that R162 to R165 share. -/
theorem decScanStep_of_byte (hlen : r.inp < r.args.sLen) (hread : memOK s.platform .read (r.args.sBase + r.inp) = true)
    (hb : s.byteAt (r.args.sBase + r.inp) = b) :
    decScanStep r s =
      if b = terminator then decTerminator r (s.logAccess .read (r.args.sBase + r.inp) b)
      else if r.w ≥ r.args.dCap then (s.logAccess .read (r.args.sBase + r.inp) b).finishBuffers r.args 0
      else if atCodePosition r then decCode r b (s.logAccess .read (r.args.sBase + r.inp) b)
      else decData r b (s.logAccess .read (r.args.sBase + r.inp) b) := by
  subst hb
  rw [decScanStep, if_pos hlen]
  exact State.memRead_admitted hread

section Read

variable (hlen : r.inp < r.args.sLen) (hread : memOK s.platform .read (r.args.sBase + r.inp) = true)
  (hb : s.byteAt (r.args.sBase + r.inp) = b)

include hlen hread hb

/-- A zero ends the scan, with a result only at the last byte (R162). -/
theorem decScanStep_of_terminator (hzero : b = terminator) :
    decScanStep r s = (s.logAccess .read (r.args.sBase + r.inp) b).finishBuffers r.args
      (if r.inp + 1 = r.args.sLen then r.w else 0) := by
  rw [decScanStep_of_byte hlen hread hb, if_pos hzero, decTerminator]
  split_ifs <;> rfl

/-- Any other byte with the destination full ends the scan without a result (R163). -/
theorem decScanStep_of_full_destination (hne : b ≠ terminator) (hcap : r.args.dCap ≤ r.w) :
    decScanStep r s = (s.logAccess .read (r.args.sBase + r.inp) b).finishBuffers r.args 0 := by
  rw [decScanStep_of_byte hlen hread hb, if_neg hne, if_pos hcap]

/-- A code byte emits the implied zero of the block before it (R164). -/
theorem decScanStep_of_code (hne : b ≠ terminator) (hcap : r.w < r.args.dCap) (hpos : r.inp = r.next)
    (hcode : r.code ≠ fullCode) (hwrite : memOK s.platform .write (r.args.dBase + r.w) = true) :
    decScanStep r s = (((s.logAccess .read (r.args.sBase + r.inp) b).setByte (r.args.dBase + r.w) 0).logAccess .write
      (r.args.dBase + r.w) 0).setEngine (afterCode r b (r.w + 1)) := by
  rw [decScanStep_of_byte hlen hread hb, if_neg hne, if_neg hcap.not_ge, if_pos (atCodePosition_iff.2 hpos), decCode,
    if_pos hcode]
  exact State.memWrite_admitted hwrite

/-- After a block with code 255 a code byte emits nothing (R164). -/
theorem decScanStep_of_code_after_full (hne : b ≠ terminator) (hcap : r.w < r.args.dCap) (hpos : r.inp = r.next)
    (hcode : r.code = fullCode) :
    decScanStep r s = (s.logAccess .read (r.args.sBase + r.inp) b).setEngine (afterCode r b r.w) := by
  rw [decScanStep_of_byte hlen hread hb, if_neg hne, if_neg hcap.not_ge, if_pos (atCodePosition_iff.2 hpos), decCode,
    if_neg (not_not.2 hcode)]

/-- A byte that is not at the next code position is copied (R165). -/
theorem decScanStep_of_data (hne : b ≠ terminator) (hcap : r.w < r.args.dCap) (hpos : r.inp ≠ r.next)
    (hwrite : memOK s.platform .write (r.args.dBase + r.w) = true) :
    decScanStep r s = (((s.logAccess .read (r.args.sBase + r.inp) b).setByte (r.args.dBase + r.w) b).logAccess .write
      (r.args.dBase + r.w) b).setEngine (.decScan { r with w := r.w + 1, inp := r.inp + 1 }) := by
  rw [decScanStep_of_byte hlen hread hb, if_neg hne, if_neg hcap.not_ge, if_neg (mt atCodePosition_iff.1 hpos)]
  exact State.memWrite_admitted hwrite

end Read

end Turn

/-! ### The end of a command with buffers -/

/-- Where `t` differs from `s` in the engine's records and the coming events alone, a `finish` without a result draws
the destination and changes the flags, and nothing else. -/
theorem finishBuffers_zero_frame {s t : State} {l : Latched} (hside : SameHostSide s t) (hfault : t.fault = s.fault)
    (hmem : SameMemory s t) :
    FinishedWith 0 (t.finishBuffers l 0) ∧ (t.finishBuffers l 0).fault = s.fault ∧
      SameHostSide s (t.finishBuffers l 0) ∧ DrawnBuffer l.dBase l.dCap s (t.finishBuffers l 0) ∧
      (t.finishBuffers l 0).trace = t.trace ∧ (t.finishBuffers l 0).inputs = t.inputs := by
  have hend := (Wrote.of_sameMemory (l := l) hside hfault hmem).finishBuffers 0
  exact ⟨hend.finished, hend.fault, hend.side, hend.drawn rfl, by simp, by simp⟩

end Sys2Proof.Machine
end

section
/-! PROOFS. The decoder's turns follow the loop of `decodeFn`: a relation between a running DECODE and the loop that
every turn keeps (42_decode.md R167). -/

namespace Sys2Proof.Machine

open Sys2Proof Config

/-- With no event left, a run of the machine keeps what every turn of the engine keeps. -/
theorem Runs.keeps_of_turn {P : State → Prop}
    (hturn : ∀ t, P t → P (engineTurn t) ∧ (engineTurn t).inputs = t.inputs) {k : Nat} {s u : State}
    (hrun : Runs k s u) (hi : s.inputs = []) (hs : P s) : P u := by
  have hkeep : ∀ a b, a.inputs = [] ∧ P a → step a = .next b → b.inputs = [] ∧ P b := by
    rintro a b ⟨ha, hpa⟩ hstep
    rw [step_of_no_inputs ha] at hstep
    cases hstep
    obtain ⟨hp, hinputs⟩ := hturn a hpa
    exact ⟨hinputs.trans ha, hp⟩
  exact (hrun.keeps hkeep ⟨hi, hs⟩).2

/-- The engine registers of a scan at offset `inp`. -/
def Scan.regs (x : Scan) (l : Latched) (inp : Nat) : ScanRegs := ⟨l, inp, x.w, x.next, x.code, false⟩

/-- From `s` a DECODE with the buffers `l` has come to `t`, where the loop that goes on from the engine's registers, or
the command's end, has the result and the writes of `f`. -/
inductive Decoding (l : Latched) (f : Nat × Written) (s t : State) : Prop where
  | first (hengine : t.engine = .decFirst ⟨l, 0, false⟩) (hwrote : Wrote l [] s t)
    (hrest : decodeFn (s.sourceFrom l 0) l.dCap = f)
  | scanning (inp : Nat) (x : Scan) (hengine : t.engine = .decScan (x.regs l inp)) (hwrote : Wrote l x.out s t)
    (hrest : x.run l.dCap inp (s.sourceFrom l inp) = f)
  | ended (hidle : t.engine = .idle) (hend : EndedWith l f s t)

theorem State.sourceFrom_eq_nil_iff {s : State} {l : Latched} {k : Nat} : s.sourceFrom l k = [] ↔ ¬ k < l.sLen :=
  ⟨State.not_lt_of_sourceFrom_eq_nil, State.sourceFrom_of_not_lt⟩

section Decoding

variable {l : Latched} {f : Nat × Written} {s t : State}

theorem Wrote.finishBuffers_decoding {out : Written} (h : Wrote l out s t) (v : Nat) :
    Decoding l (v, out) s (t.finishBuffers l v) := .ended (t.finishBuffers_engine l v) (h.finishBuffers v)

/-- The first turn reads byte 0, or ends the command on an empty frame. -/
theorem decFirstStep_decoding (hadmitted : l.admitted s.platform) (hl : l.checked s.platform) (hwrote : Wrote l [] s t) :
    Decoding l (decodeFn (s.sourceFrom l 0) l.dCap) s (decFirstStep ⟨l, 0, false⟩ t) := by
  have hread := hadmitted.1 0
  rw [← hwrote.side.1] at hread
  by_cases hlen : l.sLen = 0
  · rw [decFirstStep_of_empty hlen, State.sourceFrom_of_not_lt (by omega)]
    exact hwrote.finishBuffers_decoding 0
  · have hpos : 0 < l.sLen := Nat.pos_of_ne_zero hlen
    rw [decFirstStep_of_byte hlen (hread hpos) (hwrote.source hl hpos), State.sourceFrom_of_lt hpos, decodeFn_cons]
    exact .scanning 1 (Scan.first (s.byteAt l.sBase)) rfl ((hwrote.logAccess _ _ _).setEngine _) rfl

/-- A turn that takes a byte as code or data takes it as the loop does. -/
theorem decScanStep_decoding_of_taken (hwrites : ∀ k, k < l.dCap → memOK t.platform .write (l.dBase + k) = true)
    {inp : Nat} {x : Scan} {b : Byte} (hwrote : Wrote l x.out s t) (hlen : inp < l.sLen)
    (hread : memOK t.platform .read (l.sBase + inp) = true) (hb : t.byteAt (l.sBase + inp) = b) (hne : b ≠ terminator)
    (hcap : x.w < l.dCap) :
    Decoding l ((x.take inp b).run l.dCap (inp + 1) (s.sourceFrom l (inp + 1))) s
      (decScanStep (x.regs l inp) t) := by
  have hlogged := hwrote.logAccess .read (l.sBase + inp) b
  have hwrite := hwrites x.w hcap
  by_cases hpos : inp = x.next
  · by_cases hcode : x.code = fullCode
    · rw [decScanStep_of_code_after_full hlen hread hb hne hcap hpos hcode, Scan.take_code_after_full hpos hcode]
      exact .scanning (inp + 1) ⟨inp + b.toNat, x.w, b, x.out⟩ rfl (hlogged.setEngine _) rfl
    · rw [decScanStep_of_code hlen hread hb hne hcap hpos hcode hwrite, Scan.take_code hpos hcode]
      exact .scanning (inp + 1) ⟨inp + b.toNat, x.w + 1, b, (x.w, 0) :: x.out⟩ rfl
        ((hlogged.write hcap 0).setEngine _) rfl
  · rw [decScanStep_of_data hlen hread hb hne hcap hpos hwrite, Scan.take_data hpos]
    exact .scanning (inp + 1) ⟨x.next, x.w + 1, x.code, (x.w, b) :: x.out⟩ rfl
      ((hlogged.write hcap b).setEngine _) rfl

/-- One turn of the scan is one iteration of the loop. -/
theorem decScanStep_decoding (hadmitted : l.admitted s.platform) (hl : l.checked s.platform) {inp : Nat} {x : Scan}
    (hwrote : Wrote l x.out s t) :
    Decoding l (x.run l.dCap inp (s.sourceFrom l inp)) s (decScanStep (x.regs l inp) t) := by
  obtain ⟨hreads, hwrites⟩ := hadmitted
  rw [← hwrote.side.1] at hreads hwrites
  generalize hbs : s.sourceFrom l inp = bs
  cases bs with
  | nil =>
    rw [decScanStep_of_exhausted (State.not_lt_of_sourceFrom_eq_nil hbs)]
    exact hwrote.finishBuffers_decoding 0
  | cons b bs =>
    obtain ⟨hlen, hb, hrest⟩ := State.sourceFrom_eq_cons hbs
    have hread := hreads inp hlen
    have hbyte := (hwrote.source hl hlen).trans hb
    have hlogged := hwrote.logAccess .read (l.sBase + inp) b
    by_cases hzero : b = terminator
    · have hlast : bs = [] ↔ inp + 1 = l.sLen := by
        rw [← hrest, State.sourceFrom_eq_nil_iff]
        omega
      rw [decScanStep_of_terminator hlen hread hbyte hzero, hzero, Scan.run_terminator]
      simp only [hlast]
      exact (hzero ▸ hlogged).finishBuffers_decoding _
    · by_cases hcap : x.w < l.dCap
      · rw [Scan.run_byte hzero hcap, ← hrest]
        exact decScanStep_decoding_of_taken hwrites hwrote hlen hread hbyte hzero hcap
      · have hfull := not_lt.1 hcap
        rw [decScanStep_of_full_destination hlen hread hbyte hzero hfull, Scan.run_full hzero hfull]
        exact hlogged.finishBuffers_decoding 0

theorem Decoding.turn (hadmitted : l.admitted s.platform) (hl : l.checked s.platform) (h : Decoding l f s t) :
    Decoding l f s (engineTurn t) ∧ (engineTurn t).inputs = t.inputs := by
  cases h with
  | first hengine hwrote hrest =>
    subst hrest
    rw [engineTurn_decFirst hengine]
    exact ⟨decFirstStep_decoding hadmitted hl hwrote, (decFirstStep_advances (Nat.le_succ _)).inputs⟩
  | scanning inp x hengine hwrote hrest =>
    subst hrest
    rw [engineTurn_decScan hengine]
    exact ⟨decScanStep_decoding hadmitted hl hwrote, (decScanStep_advances (Nat.le_succ _)).inputs⟩
  | ended hidle hend =>
    rw [engineTurn_idle hidle]
    exact ⟨.ended hidle hend, rfl⟩

theorem Decoding.endedWith_of_idle (h : Decoding l f s t) (hidle : t.engine = .idle) : EndedWith l f s t := by
  cases h with
  | first hengine _ _ => rw [hidle] at hengine; cases hengine
  | scanning _ _ hengine _ _ => rw [hidle] at hengine; cases hengine
  | ended _ hend => exact hend

end Decoding

end Sys2Proof.Machine
end

section
/-! PROOFS. The statements of the family 42_decode.md. -/

namespace Sys2Proof.Machine

open Sys2Proof Config

/-- Settles O53: the scan undoes the encoder's loop. -/
theorem decodeOfEncodeIsThePayload : Obligations.DecodeOfEncodeIsThePayload := by
  intro p cap hcap
  rw [decodeFn_frameOf hcap]
  refine ⟨rfl, ?_⟩
  have hbytes := Written.bytes_push [] 0 p
  rwa [Nat.zero_add] at hbytes

/-- Settles O49: the accepted command starts in the relation to `decodeFn`'s loop, ends within its bound of turns, and
is then related by its end. -/
theorem decodeRunComputesDecodeFn : Obligations.DecodeRunComputesDecodeFn := by
  rintro s _ _ - hi hfault hbusy rfl hchecks hadmitted rfl
  have hexec := exec_decode_accepted hfault hbusy hchecks
  obtain ⟨k, u, hrun, -, hidle, -, hk, -⟩ := acceptedCommandEndsWithinBound .decode s _ hi hbusy hexec rfl
  have hstart : Decoding s.latch (decodeFn (s.bytesAt s.latch.sBase s.latch.sLen) s.latch.dCap) s
      (s.clearResult.start (decoderInit s.latch)) :=
    .first rfl (.of_sameMemory (SameHostSide.refl s) rfl ⟨fun _ => rfl, rfl⟩) rfl
  have hend := (hrun.keeps_of_turn (fun _ => Decoding.turn hadmitted ⟨s.latch_fits, hchecks⟩) hi
    hstart).endedWith_of_idle hidle
  exact ⟨_, k, u, hexec, hk rfl, hrun, hend.finished, hend.fault.trans hfault, hend.side, hend.outside, hend.written,
    hend.drawn⟩

/-- Settles O54: a scan of the accepted shape that has room gives what it has emitted, and no other scan has a result. -/
theorem decodeAcceptanceCondition : Obligations.DecodeAcceptanceCondition := by
  intro f cap
  constructor
  · rintro ⟨hshape, hroom⟩
    obtain ⟨b, ds, rfl, hds⟩ := (acceptedShape_iff f).1 hshape
    have hemitted := emittedBefore_eq (b := b) (bs := [terminator]) (le_refl ds.length)
    rw [List.take_length] at hemitted
    rw [decodeFn_accepted hds (hasRoom_iff_emittedBefore.2 hroom), ← hemitted]
    simp
  · intro hnot
    by_contra hne
    obtain ⟨b, ds, rfl, hds, hroom⟩ := accepted_of_decodeFn_ne_zero hne
    exact hnot ⟨(acceptedShape_iff _).2 ⟨b, ds, rfl, hds⟩, hasRoom_iff_emittedBefore.1 hroom⟩

/-- Settles O55: each byte scanned emits at most one, so either capacity has room for all. -/
theorem decodeCapacitySuffices : Obligations.DecodeCapacitySuffices := by
  intro f cap cap' hcap hcap'
  by_cases hshape : AcceptedShape f
  · obtain ⟨b, ds, rfl, hds⟩ := (acceptedShape_iff f).1 hshape
    have hsize : (Scan.first b).w + ds.length ≤ minDecodedSize (b :: (ds ++ [terminator])).length := by
      simp only [Scan.first, minDecodedSize, List.length_cons, List.length_append, List.length_nil]
      split_ifs <;> omega
    rw [decodeFn_accepted hds (Scan.hasRoom_of_le (hsize.trans hcap)),
      decodeFn_accepted hds (Scan.hasRoom_of_le (hsize.trans hcap'))]
    exact ⟨rfl, fun _ => rfl⟩
  · rw [decodeFn_of_not_acceptedShape hshape, decodeFn_of_not_acceptedShape hshape]
    exact ⟨rfl, fun hne => absurd rfl hne⟩

/-- Settles O56: a zero between the ends breaks the accepted shape, and after a first code of 0 every byte is data. -/
theorem corruptionToZeroDetection : Obligations.CorruptionToZeroDetection := by
  intro f cap hshape
  refine ⟨fun k hpos hk => decodeFn_of_not_acceptedShape (fun hzero => ?_) cap, fun hcap => ?_⟩
  · obtain ⟨-, -, hinner⟩ := hzero
    refine hinner k (by rw [List.length_set]; omega) hpos ?_
    rw [List.getElem?_set_self (by omega)]
    rfl
  · obtain ⟨b, ds, rfl, hds⟩ := (acceptedShape_iff f).1 hshape
    have hlen : (b :: (ds ++ [terminator])).length - 2 = ds.length := by simp
    have hbytes := Written.bytes_push [] 0 ds
    rw [hlen] at hcap ⊢
    rw [List.set_cons_zero, decodeFn_accepted hds (Scan.hasRoom_of_le (by simpa [Scan.first] using hcap)),
      Scan.after_data (by simp [Scan.first])]
    simpa [Scan.first, Written.bytes] using hbytes

/-- Settles O8: the conditions pass the three checks, so the start step runs on the latched values. -/
theorem decodeIsAccepted : Obligations.DecodeIsAccepted := by
  rintro s _ _ _ _ rfl rfl rfl rfl hfault hbusy hsrc hdst hsrcFits hdstFits hapart
  have hexec := exec_decode_accepted hfault hbusy (bufferFault_eq_none hsrc hdst hsrcFits hdstFits hapart)
  obtain ⟨hside, hmem, -, -, htrace, hinputs, -⟩ := issueFrame _ s _ hexec
  exact ⟨_, hexec, rfl, rfl, rfl, rfl, hfault, hside, hmem, htrace, hinputs⟩

/-- Settles O19: the step is `finish` alone. -/
theorem decodeEmptyFrame : Obligations.DecodeEmptyFrame := fun s _ hnext he hlen =>
  ⟨_, step_of_decFirstStep hnext he (decFirstStep_of_empty hlen),
    finishBuffers_zero_frame (SameHostSide.refl s) rfl ⟨fun _ => rfl, rfl⟩⟩

/-- Settles O20: the step is one read, of a byte that is not tested. -/
theorem decodeInitialCode : Obligations.DecodeInitialCode := fun s _ hnext he hlen hread =>
  ⟨_, step_of_decFirstStep hnext he
      (decFirstStep_of_byte (s := s.withInputs s.inputs.tail) (Nat.ne_of_gt hlen) hread rfl),
    rfl, ⟨fun _ => rfl, rfl⟩, ⟨rfl, rfl, rfl, rfl⟩, SameHostSide.refl s, rfl, rfl⟩

/-- Settles O21: the step is `finish` alone. -/
theorem decodeInputExhausted : Obligations.DecodeInputExhausted := fun s _ hnext he hlen =>
  ⟨_, step_of_decScanStep hnext he (decScanStep_of_exhausted hlen.not_lt),
    finishBuffers_zero_frame (SameHostSide.refl s) rfl ⟨fun _ => rfl, rfl⟩⟩

/-- Settles O22: the step is one read, of a zero, and `finish`. -/
theorem decodeTerminator : Obligations.DecodeTerminator := by
  rintro s r v hnext he hlen hread hzero hv
  have hstep := step_of_decScanStep hnext he
    (decScanStep_of_terminator (s := s.withInputs s.inputs.tail) hlen hread hzero rfl)
  rw [← hv] at hstep
  have hend := (Wrote.of_sameMemory (l := r.args)
    (t := (s.withInputs s.inputs.tail).logAccess .read (r.args.sBase + r.inp) 0x00) (SameHostSide.refl s) rfl
    ⟨fun _ => rfl, rfl⟩).finishBuffers v
  refine ⟨_, hstep, hend.finished, hend.fault, hend.side, fun hne => ?_, hend.drawn, by simp, by simp⟩
  rw [State.finishBuffers_of_ne_zero _ _ hne]
  exact ⟨fun _ => rfl, rfl⟩

/-- Settles O23: the step is one read, of a byte that is not 0, and `finish`. -/
theorem decodeCapacityAbort : Obligations.DecodeCapacityAbort := fun s _ hnext he hlen hread hne hcap =>
  ⟨_, step_of_decScanStep hnext he (decScanStep_of_full_destination hlen hread rfl hne hcap),
    finishBuffers_zero_frame (SameHostSide.refl s) rfl ⟨fun _ => rfl, rfl⟩⟩

/-- Settles O24: the step is one read, with one write of 0 unless the block before it had code 255. -/
theorem decodeCodeByte : Obligations.DecodeCodeByte := by
  rintro s r b hnext he hlen hread rfl hne hcap hpos
  refine ⟨fun hcode hwrite => ?_, fun hcode => ?_⟩
  · obtain ⟨hbyte, hmem, hflags, hside⟩ := writeByte_frame
      (t := (s.withInputs s.inputs.tail).logAccess .read (r.args.sBase + r.inp) (s.byteAt (r.args.sBase + r.inp)))
      (SameHostSide.refl s) ⟨rfl, rfl, rfl, rfl⟩ ⟨fun _ => rfl, rfl⟩ (r.args.dBase + r.w) 0
      (afterCode r (s.byteAt (r.args.sBase + r.inp)) (r.w + 1))
    exact ⟨_, step_of_decScanStep hnext he (decScanStep_of_code hlen hread rfl hne hcap hpos hcode hwrite), rfl,
      hbyte, hmem, hflags, hside, rfl, rfl⟩
  · exact ⟨_, step_of_decScanStep hnext he (decScanStep_of_code_after_full hlen hread rfl hne hcap hpos hcode), rfl,
      ⟨fun _ => rfl, rfl⟩, ⟨rfl, rfl, rfl, rfl⟩, SameHostSide.refl s, rfl, rfl⟩

/-- Settles O25: the step is one read and one write of the byte read. -/
theorem decodeDataByte : Obligations.DecodeDataByte := by
  rintro s r b hnext he hlen hread rfl hne hcap hpos hwrite
  obtain ⟨hbyte, hmem, hflags, hside⟩ := writeByte_frame
    (t := (s.withInputs s.inputs.tail).logAccess .read (r.args.sBase + r.inp) (s.byteAt (r.args.sBase + r.inp)))
    (SameHostSide.refl s) ⟨rfl, rfl, rfl, rfl⟩ ⟨fun _ => rfl, rfl⟩ (r.args.dBase + r.w)
    (s.byteAt (r.args.sBase + r.inp)) (.decScan { r with w := r.w + 1, inp := r.inp + 1 })
  exact ⟨_, step_of_decScanStep hnext he (decScanStep_of_data hlen hread rfl hne hcap hpos hwrite), rfl,
    hbyte, hmem, hflags, hside, rfl, rfl⟩

end Sys2Proof.Machine
end

section
/-! PROOFS. The sizes MINENC and MINDEC compute as plain arithmetic, the frame length MINENC bounds, and a sizing
command from its CMD write to its finish (43_sizing.md). -/

namespace Sys2Proof.Machine

open Sys2Proof Config

/-! ### The two formulas (R180, R182) -/

/-- The case of the empty payload is no exception to the formula, since natural subtraction stops at 0. -/
theorem minEncodedSize_eq (n : Nat) : minEncodedSize n = n + 2 + (n - 1) / 254 := by
  unfold minEncodedSize
  split_ifs with hn
  · subst hn; rfl
  · rfl

/-- The case of a frame shorter than 3 is no exception either. -/
theorem minDecodedSize_eq (n : Nat) : minDecodedSize n = n - 2 := by
  unfold minDecodedSize
  split_ifs <;> omega

theorem minEncodedSize_pos (n : Nat) : 0 < minEncodedSize n := by
  rw [minEncodedSize_eq]
  omega

theorem minEncodedSize_strictMono : StrictMono minEncodedSize := by
  intro m n hmn
  have hblocks : (m - 1) / 254 ≤ (n - 1) / 254 := Nat.div_le_div_right (by omega)
  rw [minEncodedSize_eq, minEncodedSize_eq]
  omega

theorem minDecodedSize_minEncodedSize (n : Nat) : minDecodedSize (minEncodedSize n) = n + (n - 1) / 254 := by
  rw [minDecodedSize_eq, minEncodedSize_eq]
  omega

/-! ### The overflow of MINENC (R180) -/

theorem minencResult_ne_zero_iff (p : Platform) (n : Nat) :
    minencResult p n ≠ 0 ↔ minEncodedSize n ≤ memSize p - 1 := by
  have hpos := minEncodedSize_pos n
  unfold minencResult
  split_ifs <;> omega

/-- The length whose size is the greatest value of `ADDR_W` bits is the last with a result, as the sizes increase. -/
theorem minencResult_boundary {p : Platform} {w m : Nat} (hw : p.addrW = w) (hm : minEncodedSize m = 2 ^ w - 1)
    (n : Nat) :
    (minencResult p n ≠ 0 ↔ n ≤ m) ∧ minencResult p m = 2 ^ w - 1 := by
  subst hw
  refine ⟨?_, (if_neg hm.not_gt).trans hm⟩
  rw [minencResult_ne_zero_iff, memSize, ← hm, minEncodedSize_strictMono.le_iff_le]

/-! ### Full closes and the length of a payload (R181) -/

/-- A zero byte only cuts a run, so at most one full close comes with every 254 bytes. -/
theorem fullCloses_le (r : Nat) (bs : List Byte) : fullCloses r bs ≤ (r + bs.length - 1) / 254 := by
  induction bs generalizing r with
  | nil => rfl
  | cons b bs ih =>
    simp only [fullCloses, List.length_cons]
    split_ifs
    · have hrest := ih 0
      omega
    · have hrest := ih (r + 1)
      omega

/-- Without a zero byte the payload is a single run. -/
theorem fullCloses_of_no_zero (r : Nat) {bs : List Byte} (hbs : ∀ b ∈ bs, b ≠ 0x00) :
    fullCloses r bs = (r + bs.length - 1) / 254 := by
  induction bs generalizing r with
  | nil => rfl
  | cons b bs ih =>
    obtain ⟨hb, hrest⟩ := List.forall_mem_cons.1 hbs
    rw [fullCloses, if_neg hb, ih (r + 1) hrest, List.length_cons, Nat.add_right_comm, Nat.add_assoc]

theorem frameLength_pos (p : List Byte) : 0 < frameLength p := by
  unfold frameLength
  omega

theorem frameLength_le_minEncodedSize (p : List Byte) : frameLength p ≤ minEncodedSize p.length := by
  have hcloses := fullCloses_le 0 p
  rw [Nat.zero_add] at hcloses
  rw [minEncodedSize_eq]
  exact Nat.add_le_add_left hcloses _

theorem frameLength_of_no_zero {p : List Byte} (hp : ∀ b ∈ p, b ≠ 0x00) :
    frameLength p = minEncodedSize p.length := by
  rw [minEncodedSize_eq, frameLength, fullCloses_of_no_zero 0 hp, Nat.zero_add]

/-! ### A sizing command from its CMD write to its finish (R180, R182) -/

/-- The result of a sizing command. -/
def Sizing.result (op : Sizing) (p : Platform) (n : Nat) : Nat :=
  match op with
  | .minenc => minencResult p n
  | .mindec => minDecodedSize n

theorem sizeStep_eq_finish (op : Sizing) (l : Latched) (s : State) :
    sizeStep op l s = s.finish (op.result s.platform l.sLen) := by
  cases op <;> rfl

/-- The command starts without a check, and its one turn is `finish`, which leaves the host's side and memory. -/
theorem sizing_finishes_in_one_step {i : Instr} {op : Sizing}
    (hi : i = .minenc ∧ op = .minenc ∨ i = .mindec ∧ op = .mindec) {s : State} (hinputs : s.inputs = [])
    (hfault : s.fault = .none) (hbusy : s.busy = false) :
    ∃ t u, exec i s = .next t ∧ t.busy = true ∧ step t = .next u ∧
      FinishedWith (op.result s.platform s.latch.sLen) u ∧ u.fault = .none ∧
      SameHostSide s u ∧ SameMemory s u ∧ u.trace = s.trace := by
  obtain ⟨t, hexec, hengine, hstarted, -, -, hnone, hside, hmem, htrace, hkept⟩ :=
    sizingIsAcceptedWithoutChecks s i op hi hfault hbusy
  have hplatform : t.platform = s.platform := hside.1
  have hstep : step t = .next (t.finish (op.result s.platform s.latch.sLen)) := by
    rw [step_of_no_inputs (hkept.trans hinputs), engineTurn_size hengine, sizeStep_eq_finish, hplatform]
  exact ⟨t, _, hexec, hstarted, hstep, ⟨rfl, rfl, rfl, rfl⟩, hnone, hside, hmem, htrace⟩

end Sys2Proof.Machine
end

section
/-! PROOFS. The statements of the family 43_sizing.md. -/

namespace Sys2Proof.Machine

open Sys2Proof Config

/-- Settles O57: the frame length is at most MINENC's value, with equality where the payload is a single run, and the
encoder has a result exactly where the capacity holds the frame. -/
theorem minencIsTheWorstCase : Obligations.MinencIsTheWorstCase := by
  refine ⟨fun p cap hcap => ?_, fun p hp => ?_⟩
  · have hle := frameLength_le_minEncodedSize p
    rw [encodeFn_result, if_pos (hle.trans hcap)]
    exact ⟨hle, frameLength_pos p⟩
  · have heq := frameLength_of_no_zero hp
    have hshort : ¬ frameLength p ≤ minEncodedSize p.length - 1 := by
      have hpos := minEncodedSize_pos p.length
      omega
    exact ⟨heq, by rw [encodeFn_result, if_neg hshort]⟩

/-- Settles O26: the result of the one step is R180's formula with its overflow test. -/
theorem minencComputesMinEncodedSize : Obligations.MinencComputesMinEncodedSize := by
  refine ⟨(decodeCmd_eq_ok_iff_toNat _ _).2 rfl, ?_⟩
  rintro s _ _ hinputs hfault hbusy rfl rfl
  exact sizing_finishes_in_one_step (.inl ⟨rfl, rfl⟩) hinputs hfault hbusy

/-- Settles O27: the result of the one step is R182's formula. -/
theorem mindecComputesMinDecodedSize : Obligations.MindecComputesMinDecodedSize := by
  refine ⟨(decodeCmd_eq_ok_iff_toNat _ _).2 rfl, ?_⟩
  rintro s _ hinputs hfault hbusy rfl
  exact sizing_finishes_in_one_step (.inr ⟨rfl, rfl⟩) hinputs hfault hbusy

/-- Settles O58: at each width the named length has the size `2^ADDR_W - 1`. -/
theorem minencOverflowBoundary : Obligations.MinencOverflowBoundary := by
  intro p n
  exact ⟨fun hw => minencResult_boundary hw rfl n, fun hw => minencResult_boundary hw rfl n,
    fun hw => minencResult_boundary hw rfl n⟩

/-- Settles O59: MINENC's value less the code and the terminator is the payload's length and the full closes. -/
theorem mindecOfMinencIsEnough : Obligations.MindecOfMinencIsEnough := by
  intro n
  rw [minDecodedSize_minEncodedSize]
  refine ⟨Nat.le_add_right _ _, ?_, fun _ => rfl⟩
  rintro rfl
  rfl

end Sys2Proof.Machine
end

section
/-! PROOFS. BUS_ERROR: what the fault leaves after the accesses already performed, and the engine steps in which the
platform refuses an access (60_exceptions.md R207, R210). -/

namespace Sys2Proof.Machine

open Sys2Proof Config

/-- Fault entry at a refused access, in a step that has written nothing but `out` into the destination: the performed
accesses stay in the trace, and the written bytes are lost with the rest of the destination (R210). -/
theorem Wrote.step_busError {l : Latched} {out : Written} {s t : State} (hwrote : Wrote l out s t)
    (hfault : s.fault = .none) (hstep : step s = .next (t.busError l)) :
    ∃ u, step s = .next u ∧ FaultedWith .busError u ∧ SameHostSide s u ∧ DrawnBuffer l.dBase l.dCap s u ∧
      u.trace = t.trace ∧ u.inputs = t.inputs := by
  have hnone : t.fault = .none := hwrote.fault.trans hfault
  have hfaulted : FaultedWith .busError (t.busError l) :=
    ⟨by simp [hnone], t.busError_busy l, t.busError_done l, t.busError_result l, t.busError_engine l⟩
  refine ⟨_, hstep, hfaulted, hwrote.side.trans (by simp [SameHostSide]), ⟨fun a hlo hhi => ?_, fun a ha => ?_⟩,
    t.busError_trace l, t.busError_inputs l⟩
  · rw [State.byteAt_busError, if_pos ⟨hlo, hhi⟩, hwrote.draws]
  · rw [State.byteAt_busError, if_neg (by omega), hwrote.outside a ha]

/-- The turn of a step begins with nothing written. -/
theorem State.withInputs_wrote (s : State) (l : Latched) (events : List Event) : Wrote l [] s (s.withInputs events) :=
  .of_sameMemory (SameHostSide.refl s) rfl ⟨fun _ => rfl, rfl⟩

/-! ### The first access is refused -/

section Encoder

variable {r : EncRegs} {s : State}

theorem encStep_of_refused_read (hlen : r.inp < r.args.sLen) (hcap : r.w < r.args.dCap) (hspan : r.w - r.c ≠ fullSpan)
    (hread : memOK s.platform .read (r.args.sBase + r.inp) = false) : encStep r s = s.busError r.args := by
  rw [encStep, if_pos hlen, if_neg hcap.not_ge, if_neg hspan]
  exact State.memRead_refused hread

theorem encStep_of_refused_full_close (hlen : r.inp < r.args.sLen) (hcap : r.w < r.args.dCap)
    (hspan : r.w - r.c = fullSpan) (hwrite : memOK s.platform .write (r.args.dBase + r.c) = false) :
    encStep r s = s.busError r.args := by
  rw [encStep, if_pos hlen, if_neg hcap.not_ge, if_pos hspan]
  exact State.memWrite_refused hwrite

theorem encStep_of_refused_final_code (hlen : ¬ r.inp < r.args.sLen) (hcap : r.w < r.args.dCap)
    (hcode : memOK s.platform .write (r.args.dBase + r.c) = false) : encStep r s = s.busError r.args := by
  rw [encStep, if_neg hlen, encFinal, if_neg hcap.not_ge]
  exact State.memWrite_refused hcode

end Encoder

theorem decFirstStep_of_refused_read {r : FirstRegs} {s : State} (hlen : r.args.sLen ≠ 0)
    (hread : memOK s.platform .read r.args.sBase = false) : decFirstStep r s = s.busError r.args := by
  rw [decFirstStep, if_neg hlen]
  exact State.memRead_refused hread

theorem decScanStep_of_refused_read {r : ScanRegs} {s : State} (hlen : r.inp < r.args.sLen)
    (hread : memOK s.platform .read (r.args.sBase + r.inp) = false) : decScanStep r s = s.busError r.args := by
  rw [decScanStep, if_pos hlen]
  exact State.memRead_refused hread

/-! ### A later access is refused -/

/-- The write of a zero close goes to the pending code position, that of a copy to the cursor (R125, R126). -/
theorem encStep_of_refused_write {r : EncRegs} {s : State} {b : Byte} (hlen : r.inp < r.args.sLen)
    (hcap : r.w < r.args.dCap) (hspan : r.w - r.c ≠ fullSpan)
    (hread : memOK s.platform .read (r.args.sBase + r.inp) = true) (hb : s.byteAt (r.args.sBase + r.inp) = b)
    (hwrite : memOK s.platform .write (r.args.dBase + if b = 0 then r.c else r.w) = false) :
    encStep r s = (s.logAccess .read (r.args.sBase + r.inp) b).busError r.args := by
  rw [encStep_of_open_block hlen hcap hspan hread hb]
  by_cases hzero : b = 0
  · rw [if_pos hzero] at hwrite ⊢
    exact State.memWrite_refused hwrite
  · rw [if_neg hzero] at hwrite ⊢
    exact State.memWrite_refused hwrite

/-- An implied zero and a data byte are both written at the cursor (R164, R165). -/
theorem decScanStep_of_refused_write {r : ScanRegs} {s : State} {b : Byte} (hlen : r.inp < r.args.sLen)
    (hcap : r.w < r.args.dCap) (hread : memOK s.platform .read (r.args.sBase + r.inp) = true)
    (hb : s.byteAt (r.args.sBase + r.inp) = b) (hne : b ≠ terminator) (hcode : r.inp = r.next → r.code ≠ fullCode)
    (hwrite : memOK s.platform .write (r.args.dBase + r.w) = false) :
    decScanStep r s = (s.logAccess .read (r.args.sBase + r.inp) b).busError r.args := by
  rw [decScanStep_of_byte hlen hread hb, if_neg hne, if_neg hcap.not_ge]
  by_cases hpos : r.inp = r.next
  · rw [if_pos (atCodePosition_iff.2 hpos), decCode, if_pos (hcode hpos)]
    exact State.memWrite_refused hwrite
  · rw [if_neg (mt atCodePosition_iff.1 hpos)]
    exact State.memWrite_refused hwrite

/-- The code write of the final close comes before its terminator (R127). -/
theorem encStep_of_refused_terminator {r : EncRegs} {s : State} (hlen : ¬ r.inp < r.args.sLen)
    (hcap : r.w < r.args.dCap) (hcode : memOK s.platform .write (r.args.dBase + r.c) = true)
    (hterm : memOK s.platform .write (r.args.dBase + r.w) = false) :
    encStep r s = ((s.setByte (r.args.dBase + r.c) (closeCode r)).logAccess .write (r.args.dBase + r.c)
      (closeCode r)).busError r.args := by
  rw [encStep, if_neg hlen, encFinal, if_neg hcap.not_ge]
  exact (State.memWrite_admitted hcode).trans (State.memWrite_refused hterm)

end Sys2Proof.Machine
end

section
/-! PROOFS. The statements of the family 60_exceptions.md. -/

namespace Sys2Proof.Machine

open Sys2Proof Config

/-- Settles O28: in each of the five steps the refused access is the first, so the step is fault entry alone. -/
theorem refusedFirstAccessRaisesBusError : Obligations.RefusedFirstAccessRaisesBusError := by
  intro s l kind a hnext hfault hcase hrefused
  refine (s.withInputs_wrote l s.inputs.tail).step_busError hfault ?_
  rcases hcase with ⟨r, he, rfl, hlen, hcap, hspan, rfl, rfl⟩ | ⟨r, he, rfl, hlen, hcap, hspan, rfl, rfl⟩ |
    ⟨r, he, rfl, hlen, hcap, rfl, rfl⟩ | ⟨r, he, rfl, hlen, rfl, rfl⟩ | ⟨r, he, rfl, hlen, rfl, rfl⟩
  · exact step_of_encStep hnext he (encStep_of_refused_read hlen hcap hspan hrefused)
  · exact step_of_encStep hnext he (encStep_of_refused_full_close hlen hcap hspan hrefused)
  · exact step_of_encStep hnext he (encStep_of_refused_final_code hlen.not_lt hcap hrefused)
  · exact step_of_decFirstStep hnext he (decFirstStep_of_refused_read (Nat.ne_of_gt hlen) hrefused)
  · exact step_of_decScanStep hnext he (decScanStep_of_refused_read hlen hrefused)

/-- Settles O29: the step is the read and fault entry. -/
theorem refusedWriteRaisesBusError : Obligations.RefusedWriteRaisesBusError := by
  intro s l a x b hnext hfault hread hb hcase hrefused
  refine ((s.withInputs_wrote l s.inputs.tail).logAccess .read a b).step_busError hfault ?_
  rcases hcase with ⟨r, he, rfl, hlen, hcap, hspan, rfl, rfl⟩ | ⟨r, he, rfl, hlen, hcap, hne, hcode, rfl, rfl⟩
  · exact step_of_encStep hnext he (encStep_of_refused_write hlen hcap hspan hread hb hrefused)
  · exact step_of_decScanStep hnext he (decScanStep_of_refused_write hlen hcap hread hb hne hcode hrefused)

/-- Settles O30: the step is the code write, which lies in the destination, and fault entry. -/
theorem refusedTerminatorFollowsCodeWrite : Obligations.RefusedTerminatorFollowsCodeWrite := by
  intro s r hnext hfault he hlen hcw hcap hcode hterm
  exact ((s.withInputs_wrote r.args s.inputs.tail).write (hcw.trans hcap) (closeCode r)).step_busError hfault
    (step_of_encStep hnext he (encStep_of_refused_terminator hlen.not_lt hcap hcode hterm))

end Sys2Proof.Machine
end

section
/-! PROOFS. The reset events: what the block's reset leaves of the registers and of data memory, and the memory each of
the two events resets the block with (70_reset_and_hazards.md R230 to R232). -/

namespace Sys2Proof.Machine

open Sys2Proof Config

/-! ### The block's reset -/

theorem State.resetBlock_of_buffers {s : State} {l : Latched} (h : s.engine.buffers = some l) :
    s.resetBlock = s.resetRegs.drawBytes l.dBase l.dCap := by
  unfold State.resetBlock; rw [h]

theorem State.resetBlock_of_no_buffers {s : State} (h : s.engine.buffers = none) : s.resetBlock = s.resetRegs := by
  unfold State.resetBlock; rw [h]

/-- Every host-visible register is 0 and the engine IDLE (R230). -/
theorem State.resetBlock_registers (s : State) :
    s.resetBlock.srcAddr = 0 ∧ s.resetBlock.srcLen = 0 ∧ s.resetBlock.dstAddr = 0 ∧ s.resetBlock.dstCap = 0 ∧
      s.resetBlock.result = 0 ∧ s.resetBlock.busy = false ∧ s.resetBlock.done = false ∧
      s.resetBlock.fault = .none ∧ s.resetBlock.engine = .idle := by
  cases h : s.engine.buffers with
  | none => simp [State.resetBlock_of_no_buffers h]
  | some l => simp [State.resetBlock_of_buffers h]

/-- The platform, the replies given, the trace and the coming events are no part of the block. -/
theorem State.resetBlock_frame (s : State) :
    s.resetBlock.platform = s.platform ∧ s.resetBlock.replies = s.replies ∧ s.resetBlock.trace = s.trace ∧
      s.resetBlock.inputs = s.inputs := by
  cases h : s.engine.buffers with
  | none => simp [State.resetBlock_of_no_buffers h]
  | some l => simp [State.resetBlock_of_buffers h]

/-- The destination of an abandoned command holds any value (R231). -/
theorem State.byteAt_resetBlock_dest {s : State} {l : Latched} (h : s.engine.buffers = some l) {a : Nat}
    (hlo : l.dBase ≤ a) (hhi : a < l.dBase + l.dCap) : s.resetBlock.byteAt a = freeByte s.draws a := by
  rw [State.byteAt_resetBlock, h]
  exact if_pos ⟨hlo, hhi⟩

/-- Outside that destination the block's reset leaves data memory (R232). -/
theorem State.byteAt_resetBlock_outside {s : State} {a : Nat}
    (h : ∀ l, s.engine.buffers = some l → ¬ (l.dBase ≤ a ∧ a < l.dBase + l.dCap)) :
    s.resetBlock.byteAt a = s.byteAt a := by
  rw [State.byteAt_resetBlock]
  split
  · next l hl => exact if_neg (h l hl)
  · rfl

/-! ### The two events -/

/-- The state with other cells and drawn ranges. -/
def State.withMemory (s : State) (m : Memory) (ds : List Drawn) : State := { s with mem := m, drawn := ds }

/-- Either event resets the block: with data memory as it was, or cleared at the platform's own reset on a platform
that clears it (R232). -/
theorem step_of_resetEvent {s : State} {rest : List Event}
    (h : s.inputs = .reset :: rest ∨ s.inputs = .platformReset :: rest) :
    ∃ m ds, step s = .next ((s.withInputs rest).withMemory m ds).resetBlock ∧
      (s.inputs = .reset :: rest ∨ s.platform.resetClearsMemory = false → m = s.mem ∧ ds = s.drawn) ∧
      (s.inputs = .platformReset :: rest → s.platform.resetClearsMemory = true → m = [] ∧ ds = []) := by
  rcases h with h | h
  · exact ⟨s.mem, s.drawn, step_of_event h, fun _ => ⟨rfl, rfl⟩, by simp [h]⟩
  · have hstep : step s = .next (s.withInputs rest).resetPlatform := step_of_event h
    unfold State.resetPlatform at hstep
    cases hc : s.platform.resetClearsMemory with
    | false =>
      rw [if_neg (by simp [hc])] at hstep
      exact ⟨s.mem, s.drawn, hstep, fun _ => ⟨rfl, rfl⟩, fun _ hf => by cases hf⟩
    | true =>
      rw [if_pos (by simp [hc])] at hstep
      exact ⟨[], [], hstep, by simp [h], fun _ _ => ⟨rfl, rfl⟩⟩

end Sys2Proof.Machine
end

section
/-! PROOFS. The statements of the family 70_reset_and_hazards.md. -/

namespace Sys2Proof.Machine

open Sys2Proof Config

/-- Settles O38: the step is the block's reset, with data memory as it was or cleared. -/
theorem resetEventClearsTheBlock : Obligations.ResetEventClearsTheBlock := by
  intro s rest h
  obtain ⟨m, ds, hstep, hkept, hcleared⟩ := step_of_resetEvent h
  let u := (s.withInputs rest).withMemory m ds
  obtain ⟨hsrcAddr, hsrcLen, hdstAddr, hdstCap, hresult, hbusy, hdone, hfault, hengine⟩ := u.resetBlock_registers
  have hdest : ∀ l, s.engine.buffers = some l →
      ∀ a, l.dBase ≤ a → a < l.dBase + l.dCap → u.resetBlock.byteAt a = freeByte s.draws a :=
    fun _ hl _ => State.byteAt_resetBlock_dest (s := u) hl
  refine ⟨u.resetBlock, hstep, hsrcAddr, hsrcLen, hdstAddr, hdstCap, hresult, hbusy, hdone, hfault, hengine, hdest,
    fun hkeeps => ⟨fun l hl => ⟨hdest l hl, fun a ha => ?_⟩, fun hnone => ?_⟩, fun hplatform hclears a ha => ?_,
    u.resetBlock_frame⟩
  · obtain ⟨hm, hds⟩ := hkept hkeeps
    have houtside : ∀ l', u.engine.buffers = some l' → ¬ (l'.dBase ≤ a ∧ a < l'.dBase + l'.dCap) := by
      intro l' hl'
      obtain rfl : l = l' := Option.some.inj (hl.symm.trans hl')
      omega
    exact (State.byteAt_resetBlock_outside houtside).trans (State.byteAt_congr hm hds a)
  · obtain ⟨hm, hds⟩ := hkept hkeeps
    rw [State.resetBlock_of_no_buffers (s := u) hnone]
    exact ⟨State.byteAt_congr hm hds, rfl⟩
  · obtain ⟨hm, hds⟩ := hcleared hplatform hclears
    exact (State.byteAt_resetBlock_outside (s := u) ha).trans (State.byteAt_congr (s := s.clearMemory) hm hds a)

end Sys2Proof.Machine
end
